-- ==== Sys2Proof/Word.lean ====
section
/-! DEFINITION. The machine's word types and their plainest arithmetic (00_scope.md R6 to R8). -/

namespace Sys2Proof

/-- A register, memory or immediate byte: 8 bits, unsigned (R6 V_WIDTH, R8). -/
abbrev Byte := BitVec 8

/-- A 16-bit value: PC, I, a stack entry, an instruction word (R6). -/
abbrev Word := BitVec 16

/-- The 12-bit address operand `nnn` (R91). -/
abbrev Addr12 := BitVec 12

/-- A 4-bit piece of an instruction word (R11 "Nibble"). -/
abbrev Nibble := BitVec 4

/-- The index of a general register, 0x0..0xF (R21). -/
abbrev Reg := Fin 16

/-- A key code, 0x0..0xF (R40). -/
abbrev Key := BitVec 4

/-- VF is V15 (R10, R22). -/
abbrev vF : Reg := 15

/-- V0, read implicitly by `Bnnn` (R21, R126). -/
abbrev v0 : Reg := 0

end Sys2Proof
end

