-- ==== Sys2Proof/Syntax.lean ====
section
/-! DEFINITION. The 30 instructions of the opcode table, one constructor a row (30_encoding.md R99).
The operands carry their widths in their types (R91), so an operand out of range cannot be written. -/

namespace Sys2Proof

/-- One constructor for each row of spec/opcode_table.json, in the table's order; `x`, `y` are register
indices, `kk` an immediate byte, `nnn` an address, `n` a count of sprite rows (R10, R93). -/
inductive Instr where
  /-- `00E0` CLS (R202). -/
  | cls
  /-- `00EE` RET (R120). -/
  | ret
  /-- `1nnn` JP nnn (R121). -/
  | jp (nnn : Addr12)
  /-- `2nnn` CALL nnn (R122). -/
  | call (nnn : Addr12)
  /-- `3xkk` SE Vx, kk (R123). -/
  | seVxKk (x : Reg) (kk : Byte)
  /-- `4xkk` SNE Vx, kk (R124). -/
  | sneVxKk (x : Reg) (kk : Byte)
  /-- `6xkk` LD Vx, kk (R150). -/
  | ldVxKk (x : Reg) (kk : Byte)
  /-- `7xkk` ADD Vx, kk (R151). -/
  | addVxKk (x : Reg) (kk : Byte)
  /-- `8xy0` LD Vx, Vy (R152). -/
  | ldVxVy (x y : Reg)
  /-- `8xy1` OR Vx, Vy (R153). -/
  | orVxVy (x y : Reg)
  /-- `8xy2` AND Vx, Vy (R154). -/
  | andVxVy (x y : Reg)
  /-- `8xy3` XOR Vx, Vy (R155). -/
  | xorVxVy (x y : Reg)
  /-- `8xy4` ADD Vx, Vy (R156). -/
  | addVxVy (x y : Reg)
  /-- `8xy5` SUB Vx, Vy (R157). -/
  | subVxVy (x y : Reg)
  /-- `8xy6` SHR Vx (R158); `y` is decoded and not used, and every `y` is this instruction (R93). -/
  | shrVx (x y : Reg)
  /-- `9xy0` SNE Vx, Vy (R125). -/
  | sneVxVy (x y : Reg)
  /-- `Annn` LD I, nnn (R180). -/
  | ldINnn (nnn : Addr12)
  /-- `Bnnn` JP V0, nnn (R126). -/
  | jpV0Nnn (nnn : Addr12)
  /-- `Cxkk` RND Vx, kk (R159). -/
  | rndVxKk (x : Reg) (kk : Byte)
  /-- `Dxyn` DRW Vx, Vy, n (R203). -/
  | drwVxVyN (x y : Reg) (n : Fin 16)
  /-- `Ex9E` SKP Vx (R220). -/
  | skpVx (x : Reg)
  /-- `ExA1` SKNP Vx (R221). -/
  | sknpVx (x : Reg)
  /-- `Fx07` LD Vx, DT (R222). -/
  | ldVxDt (x : Reg)
  /-- `Fx0A` LD Vx, K (R224). -/
  | ldVxK (x : Reg)
  /-- `Fx15` LD DT, Vx (R223). -/
  | ldDtVx (x : Reg)
  /-- `Fx1E` ADD I, Vx (R181). -/
  | addIVx (x : Reg)
  /-- `Fx29` LD F, Vx (R182). -/
  | ldFVx (x : Reg)
  /-- `Fx33` LD B, Vx (R183). -/
  | ldBVx (x : Reg)
  /-- `Fx55` LD [I], Vx (R184). -/
  | ldMemIVx (x : Reg)
  /-- `Fx65` LD Vx, [I] (R185). -/
  | ldVxMemI (x : Reg)
deriving DecidableEq, Repr

end Sys2Proof
end

