-- ==== Sys2Proof/WellFormed.lean ====
section
/-! DEFINITION. When an instruction's operand values fit their fields (30_encoding.md R91). The check is on
raw numbers, one check a field; the types of `Instr` already hold every operand inside its field, so the
check accepts every `Instr` (Laws/PerInstr.lean) and refuses raw operand values out of range. -/

namespace Sys2Proof

/-- The operand fields of R91 (`op` is fixed by the instruction). -/
inductive Field where
  | x | y | n | kk | nnn
deriving DecidableEq, Repr

/-- The field's width in bits (R91). -/
def Field.width : Field → Nat
  | .x => 4
  | .y => 4
  | .n => 4
  | .kk => 8
  | .nnn => 12

/-- A raw value fits a field when it is one of the values the field can hold. -/
def Field.fits (f : Field) (value : Nat) : Bool := decide (value < 2 ^ f.width)

/-- The operands of an instruction as raw numbers, each with the field that holds it (R92). -/
def Instr.operands : Instr → List (Field × Nat)
  | .cls => []
  | .ret => []
  | .jp nnn => [(.nnn, nnn.toNat)]
  | .call nnn => [(.nnn, nnn.toNat)]
  | .seVxKk x kk => [(.x, x.val), (.kk, kk.toNat)]
  | .sneVxKk x kk => [(.x, x.val), (.kk, kk.toNat)]
  | .ldVxKk x kk => [(.x, x.val), (.kk, kk.toNat)]
  | .addVxKk x kk => [(.x, x.val), (.kk, kk.toNat)]
  | .ldVxVy x y => [(.x, x.val), (.y, y.val)]
  | .orVxVy x y => [(.x, x.val), (.y, y.val)]
  | .andVxVy x y => [(.x, x.val), (.y, y.val)]
  | .xorVxVy x y => [(.x, x.val), (.y, y.val)]
  | .addVxVy x y => [(.x, x.val), (.y, y.val)]
  | .subVxVy x y => [(.x, x.val), (.y, y.val)]
  | .shrVx x y => [(.x, x.val), (.y, y.val)]
  | .sneVxVy x y => [(.x, x.val), (.y, y.val)]
  | .ldINnn nnn => [(.nnn, nnn.toNat)]
  | .jpV0Nnn nnn => [(.nnn, nnn.toNat)]
  | .rndVxKk x kk => [(.x, x.val), (.kk, kk.toNat)]
  | .drwVxVyN x y n => [(.x, x.val), (.y, y.val), (.n, n.val)]
  | .skpVx x => [(.x, x.val)]
  | .sknpVx x => [(.x, x.val)]
  | .ldVxDt x => [(.x, x.val)]
  | .ldVxK x => [(.x, x.val)]
  | .ldDtVx x => [(.x, x.val)]
  | .addIVx x => [(.x, x.val)]
  | .ldFVx x => [(.x, x.val)]
  | .ldBVx x => [(.x, x.val)]
  | .ldMemIVx x => [(.x, x.val)]
  | .ldVxMemI x => [(.x, x.val)]

/-- Raw operand values are well formed when each fits its field. -/
def operandsFit (operands : List (Field × Nat)) : Bool :=
  operands.all fun o => o.1.fits o.2

/-- An instruction is well formed when its operands fit their fields. -/
def Instr.wellFormed (i : Instr) : Bool := operandsFit i.operands

end Sys2Proof
end

