-- ==== Sys2Proof/Decode.lean ====
section
/-! DEFINITION. The decoder, total on every word and every list of bytes, the encoder after it, and the
opcode table as data (30_encoding.md R90 to R100). -/

namespace Sys2Proof

/-- Why bytes are no instruction. -/
inductive DecodeError where
  /-- Fewer than the two bytes every instruction has (R90). -/
  | truncated
  /-- The word is none of the 30 instructions (R95, R98). -/
  | unknownOpcode
deriving DecidableEq, Repr

/-! ### Fields (R91) -/

/-- `op`, w[15:12]. -/
def opOf (w : Word) : Nibble := w.extractLsb' 12 4

/-- `x`, w[11:8], as a register index. -/
def xOf (w : Word) : Reg := (w.extractLsb' 8 4).toFin

/-- `y`, w[7:4], as a register index. -/
def yOf (w : Word) : Reg := (w.extractLsb' 4 4).toFin

/-- `n`, w[3:0], as a count. -/
def nOf (w : Word) : Fin 16 := (w.extractLsb' 0 4).toFin

/-- `kk`, w[7:0]. -/
def kkOf (w : Word) : Byte := w.extractLsb' 0 8

/-- `nnn`, w[11:0]. -/
def nnnOf (w : Word) : Addr12 := w.extractLsb' 0 12

/-! ### Decoding (R94, R95) -/

/-- Op 0x0: only the two full words `00E0` and `00EE` are instructions (R94, C2). -/
def decodeOp0 (w : Word) : Except DecodeError Instr :=
  if w = 0x00E0 then .ok .cls
  else if w = 0x00EE then .ok .ret
  else .error .unknownOpcode

/-- Op 0x8: the nibble `n` selects (R94). -/
def decodeOp8 (w : Word) : Except DecodeError Instr :=
  if nOf w = 0 then .ok (.ldVxVy (xOf w) (yOf w))
  else if nOf w = 1 then .ok (.orVxVy (xOf w) (yOf w))
  else if nOf w = 2 then .ok (.andVxVy (xOf w) (yOf w))
  else if nOf w = 3 then .ok (.xorVxVy (xOf w) (yOf w))
  else if nOf w = 4 then .ok (.addVxVy (xOf w) (yOf w))
  else if nOf w = 5 then .ok (.subVxVy (xOf w) (yOf w))
  else if nOf w = 6 then .ok (.shrVx (xOf w) (yOf w))
  else .error .unknownOpcode

/-- Op 0x9: `n` must be 0 (R94, C2). -/
def decodeOp9 (w : Word) : Except DecodeError Instr :=
  if nOf w = 0 then .ok (.sneVxVy (xOf w) (yOf w)) else .error .unknownOpcode

/-- Op 0xE: the byte `kk` selects (R94). -/
def decodeOpE (w : Word) : Except DecodeError Instr :=
  if kkOf w = 0x9E then .ok (.skpVx (xOf w))
  else if kkOf w = 0xA1 then .ok (.sknpVx (xOf w))
  else .error .unknownOpcode

/-- Op 0xF: the byte `kk` selects (R94). -/
def decodeOpF (w : Word) : Except DecodeError Instr :=
  if kkOf w = 0x07 then .ok (.ldVxDt (xOf w))
  else if kkOf w = 0x0A then .ok (.ldVxK (xOf w))
  else if kkOf w = 0x15 then .ok (.ldDtVx (xOf w))
  else if kkOf w = 0x1E then .ok (.addIVx (xOf w))
  else if kkOf w = 0x29 then .ok (.ldFVx (xOf w))
  else if kkOf w = 0x33 then .ok (.ldBVx (xOf w))
  else if kkOf w = 0x55 then .ok (.ldMemIVx (xOf w))
  else if kkOf w = 0x65 then .ok (.ldVxMemI (xOf w))
  else .error .unknownOpcode

/-- `Decode(w)`: dispatch first on `op` (R94, R95). -/
def decode (w : Word) : Except DecodeError Instr :=
  if opOf w = 0x0 then decodeOp0 w
  else if opOf w = 0x1 then .ok (.jp (nnnOf w))
  else if opOf w = 0x2 then .ok (.call (nnnOf w))
  else if opOf w = 0x3 then .ok (.seVxKk (xOf w) (kkOf w))
  else if opOf w = 0x4 then .ok (.sneVxKk (xOf w) (kkOf w))
  else if opOf w = 0x5 then .error .unknownOpcode
  else if opOf w = 0x6 then .ok (.ldVxKk (xOf w) (kkOf w))
  else if opOf w = 0x7 then .ok (.addVxKk (xOf w) (kkOf w))
  else if opOf w = 0x8 then decodeOp8 w
  else if opOf w = 0x9 then decodeOp9 w
  else if opOf w = 0xA then .ok (.ldINnn (nnnOf w))
  else if opOf w = 0xB then .ok (.jpV0Nnn (nnnOf w))
  else if opOf w = 0xC then .ok (.rndVxKk (xOf w) (kkOf w))
  else if opOf w = 0xD then .ok (.drwVxVyN (xOf w) (yOf w) (nOf w))
  else if opOf w = 0xE then decodeOpE w
  else decodeOpF w

/-- The big-endian word `hi ++ lo` of two bytes, the first from the lower address (R64, R66). -/
def wordOfBytes (hi lo : Byte) : Word := hi.setWidth 16 <<< 8 ||| lo.setWidth 16

/-- The byte at the lower address of a word, w[15:8] (R66). -/
def hiByte (w : Word) : Byte := w.extractLsb' 8 8

/-- The byte at the higher address of a word, w[7:0] (R66). -/
def loByte (w : Word) : Byte := w.extractLsb' 0 8

/-- Decode the instruction at the head of a list of bytes, and give back the bytes after it (R90). -/
def decodeBytes : List Byte → Except DecodeError (Instr × List Byte)
  | hi :: lo :: rest =>
    match decode (wordOfBytes hi lo) with
    | .ok i => .ok (i, rest)
    | .error e => .error e
  | _ => .error .truncated

/-! ### Encoding (R92, R99) -/

/-- A register index as its 4 bits. -/
def regBits (r : Reg) : Nibble := BitVec.ofFin r

/-- Format NNN: op ++ nnn. -/
def encNNN (op : Nibble) (nnn : Addr12) : Word := op.setWidth 16 <<< 12 ||| nnn.setWidth 16

/-- Format XKK: op ++ x ++ kk (XFF has a fixed kk). -/
def encXKK (op : Nibble) (x : Reg) (kk : Byte) : Word :=
  op.setWidth 16 <<< 12 ||| (regBits x).setWidth 16 <<< 8 ||| kk.setWidth 16

/-- Format XYN: op ++ x ++ y ++ n (XYF has a fixed n). -/
def encXYN (op : Nibble) (x y : Reg) (n : Nibble) : Word :=
  op.setWidth 16 <<< 12 ||| (regBits x).setWidth 16 <<< 8 ||| (regBits y).setWidth 16 <<< 4 ||| n.setWidth 16

/-- The word of an instruction (R92, R99). -/
def encode : Instr → Word
  | .cls => 0x00E0
  | .ret => 0x00EE
  | .jp nnn => encNNN 0x1 nnn
  | .call nnn => encNNN 0x2 nnn
  | .seVxKk x kk => encXKK 0x3 x kk
  | .sneVxKk x kk => encXKK 0x4 x kk
  | .ldVxKk x kk => encXKK 0x6 x kk
  | .addVxKk x kk => encXKK 0x7 x kk
  | .ldVxVy x y => encXYN 0x8 x y 0x0
  | .orVxVy x y => encXYN 0x8 x y 0x1
  | .andVxVy x y => encXYN 0x8 x y 0x2
  | .xorVxVy x y => encXYN 0x8 x y 0x3
  | .addVxVy x y => encXYN 0x8 x y 0x4
  | .subVxVy x y => encXYN 0x8 x y 0x5
  | .shrVx x y => encXYN 0x8 x y 0x6
  | .sneVxVy x y => encXYN 0x9 x y 0x0
  | .ldINnn nnn => encNNN 0xA nnn
  | .jpV0Nnn nnn => encNNN 0xB nnn
  | .rndVxKk x kk => encXKK 0xC x kk
  | .drwVxVyN x y n => encXYN 0xD x y (BitVec.ofFin n)
  | .skpVx x => encXKK 0xE x 0x9E
  | .sknpVx x => encXKK 0xE x 0xA1
  | .ldVxDt x => encXKK 0xF x 0x07
  | .ldVxK x => encXKK 0xF x 0x0A
  | .ldDtVx x => encXKK 0xF x 0x15
  | .addIVx x => encXKK 0xF x 0x1E
  | .ldFVx x => encXKK 0xF x 0x29
  | .ldBVx x => encXKK 0xF x 0x33
  | .ldMemIVx x => encXKK 0xF x 0x55
  | .ldVxMemI x => encXKK 0xF x 0x65

/-- The two bytes of an instruction as they stand in memory, the first at the lower address (R66). -/
def encodeBytes (i : Instr) : List Byte := [hiByte (encode i), loByte (encode i)]

/-! ### The opcode table as data (spec/opcode_table.json) -/

/-- One row of the table: a word is this row's when it agrees with `pattern` on the bits of `mask`. -/
structure OpcodeRow where
  mnemonic : String
  pattern : Word
  mask : Word
deriving DecidableEq, Repr

/-- The word belongs to the row. -/
def OpcodeRow.covers (r : OpcodeRow) (w : Word) : Bool := w &&& r.mask == r.pattern

/-- The table's row of an instruction. -/
def Instr.row : Instr → OpcodeRow
  | .cls => ⟨"CLS", 0x00E0, 0xFFFF⟩
  | .ret => ⟨"RET", 0x00EE, 0xFFFF⟩
  | .jp _ => ⟨"JP_nnn", 0x1000, 0xF000⟩
  | .call _ => ⟨"CALL_nnn", 0x2000, 0xF000⟩
  | .seVxKk _ _ => ⟨"SE_Vx__kk", 0x3000, 0xF000⟩
  | .sneVxKk _ _ => ⟨"SNE_Vx__kk", 0x4000, 0xF000⟩
  | .ldVxKk _ _ => ⟨"LD_Vx__kk", 0x6000, 0xF000⟩
  | .addVxKk _ _ => ⟨"ADD_Vx__kk", 0x7000, 0xF000⟩
  | .ldVxVy _ _ => ⟨"LD_Vx__Vy", 0x8000, 0xF00F⟩
  | .orVxVy _ _ => ⟨"OR_Vx__Vy", 0x8001, 0xF00F⟩
  | .andVxVy _ _ => ⟨"AND_Vx__Vy", 0x8002, 0xF00F⟩
  | .xorVxVy _ _ => ⟨"XOR_Vx__Vy", 0x8003, 0xF00F⟩
  | .addVxVy _ _ => ⟨"ADD_Vx__Vy", 0x8004, 0xF00F⟩
  | .subVxVy _ _ => ⟨"SUB_Vx__Vy", 0x8005, 0xF00F⟩
  | .shrVx _ _ => ⟨"SHR_Vx", 0x8006, 0xF00F⟩
  | .sneVxVy _ _ => ⟨"SNE_Vx__Vy", 0x9000, 0xF00F⟩
  | .ldINnn _ => ⟨"LD_I__nnn", 0xA000, 0xF000⟩
  | .jpV0Nnn _ => ⟨"JP_V0__nnn", 0xB000, 0xF000⟩
  | .rndVxKk _ _ => ⟨"RND_Vx__kk", 0xC000, 0xF000⟩
  | .drwVxVyN _ _ _ => ⟨"DRW_Vx__Vy__n", 0xD000, 0xF000⟩
  | .skpVx _ => ⟨"SKP_Vx", 0xE09E, 0xF0FF⟩
  | .sknpVx _ => ⟨"SKNP_Vx", 0xE0A1, 0xF0FF⟩
  | .ldVxDt _ => ⟨"LD_Vx__DT", 0xF007, 0xF0FF⟩
  | .ldVxK _ => ⟨"LD_Vx__K", 0xF00A, 0xF0FF⟩
  | .ldDtVx _ => ⟨"LD_DT__Vx", 0xF015, 0xF0FF⟩
  | .addIVx _ => ⟨"ADD_I__Vx", 0xF01E, 0xF0FF⟩
  | .ldFVx _ => ⟨"LD_F__Vx", 0xF029, 0xF0FF⟩
  | .ldBVx _ => ⟨"LD_B__Vx", 0xF033, 0xF0FF⟩
  | .ldMemIVx _ => ⟨"LD__I___Vx", 0xF055, 0xF0FF⟩
  | .ldVxMemI _ => ⟨"LD_Vx___I", 0xF065, 0xF0FF⟩

/-- The 30 rows (R99), in the table's order. -/
def opcodeTable : List OpcodeRow :=
  [Instr.cls.row, Instr.ret.row, (Instr.jp 0).row, (Instr.call 0).row, (Instr.seVxKk 0 0).row,
   (Instr.sneVxKk 0 0).row, (Instr.ldVxKk 0 0).row, (Instr.addVxKk 0 0).row, (Instr.ldVxVy 0 0).row,
   (Instr.orVxVy 0 0).row] ++
  [(Instr.andVxVy 0 0).row, (Instr.xorVxVy 0 0).row, (Instr.addVxVy 0 0).row, (Instr.subVxVy 0 0).row,
   (Instr.shrVx 0 0).row, (Instr.sneVxVy 0 0).row, (Instr.ldINnn 0).row, (Instr.jpV0Nnn 0).row,
   (Instr.rndVxKk 0 0).row, (Instr.drwVxVyN 0 0 0).row] ++
  [(Instr.skpVx 0).row, (Instr.sknpVx 0).row, (Instr.ldVxDt 0).row, (Instr.ldVxK 0).row,
   (Instr.ldDtVx 0).row, (Instr.addIVx 0).row, (Instr.ldFVx 0).row, (Instr.ldBVx 0).row,
   (Instr.ldMemIVx 0).row, (Instr.ldVxMemI 0).row]

/-! ### The host's question -/

/-- The word of an opcode-table row's bits: the bits above `nbits` are 0. -/
def tableWord (nbits w : Nat) : Word := BitVec.ofNat 16 (w % 2 ^ nbits)

/-- The instruction the decoder reads from a table row's bits, laid out as memory holds them: the word's
high byte first (R66). -/
def decodeTableWord (nbits w : Nat) : Option Instr :=
  match decodeBytes [hiByte (tableWord nbits w), loByte (tableWord nbits w)] with
  | .ok (i, _) => some i
  | .error _ => none

end Sys2Proof
end

