-- ==== Sys2Proof/Config.lean ====
section
/-! DEFINITION. What an implementation fixes (00_scope.md R6) and the values the spec leaves open. A constant
declared `opaque` has no body: nothing proves anything of its value, so a claim holds for every value. -/

namespace Sys2Proof

/-- MEM_SIZE: addresses 0..4095 are in bounds (R6, R61). -/
abbrev memSize : Nat := 4096

/-- ROM_BASE and RESET_PC (R6, R281, D3). -/
abbrev romBase : Nat := 0x200

/-- The longest ROM that fits, 4096 - 0x200 bytes (R244). -/
abbrev romMax : Nat := 3584

/-- STACK_DEPTH (R6, R29, D2). -/
abbrev stackDepth : Nat := 16

/-- DISPLAY_W (R6). -/
abbrev displayWidth : Nat := 64

/-- DISPLAY_H (R6). -/
abbrev displayHeight : Nat := 32

/-- FONT_GLYPH_BYTES (R6, R182). -/
abbrev fontGlyphBytes : Nat := 5

/-- The two values of the parameter VF_OPERAND_SAMPLING (R97). -/
inductive VfSampling where
  /-- `vx` and `vy` are read once, before any write of the step. -/
  | latched
  /-- `vx` and `vy` are read where the pseudocode mentions them. -/
  | sequential
deriving DecidableEq, Repr, Inhabited

/-- VF_OPERAND_SAMPLING, left open by the source (R97, R161, D6; log 5). -/
opaque Config.vfOperandSampling : VfSampling

/-- The byte the random source answers at its draw number `k`: a free draw under no law (R41, R256, D16;
log 6). -/
opaque Config.randomByte : Nat → Byte

/-- Which pixels a faulting `Dxyn` had drawn, at free value number `k`, by display row: bit `x` of row `y` set
means the pixel at `(x, y)` holds its new value, else its old one (R246, D14; log 7). -/
opaque Config.partialPixels : Nat → Nat → BitVec 64

/-- Whether a faulting `Fx33` or `Fx55` had written the byte at an address, at free value number `k` (R246;
log 7). -/
opaque Config.partialBytes : Nat → Nat → Bool

/-- Whether a faulting `Fx65` had loaded the register of an index, at free value number `k` (R246; log 7). -/
opaque Config.partialRegs : Nat → Nat → Bool

end Sys2Proof
end

