-- ==== Sys2Proof/Machine/State.lean ====
section
/-! DEFINITION. The machine's state as the spec gives it (10_state.md R20), the reasons to stop, and reset. -/

namespace Sys2Proof.Machine

/-- Which fatal condition the error record names (R35 err_kind). -/
inductive ErrKind where
  | none | outOfBounds | unknownOpcode | stackUnderflow
deriving DecidableEq, Repr

/-- The operation that went out of bounds (R35 err_op; the codes 5..7 are never written). -/
inductive ErrOp where
  | none | fetch | read | write | push
deriving DecidableEq, Repr

/-- The error record (R35). -/
structure ErrRecord where
  kind : ErrKind
  op : ErrOp
  pc : Word
  word : Word
  addr : Word
deriving DecidableEq, Repr

/-- The record with every field 0, as it is after reset (R35, R45). -/
def ErrRecord.clear : ErrRecord := ⟨.none, .none, 0, 0, 0⟩

/-- Memory M (R37, R60): the bytes that differ from what an unlisted address reads as, by rising address.
`Memory.wf` (Ops.lean) is the form every operation keeps. -/
structure Memory where
  cells : List Host.Cell
deriving DecidableEq, Repr

/-- Memory with no byte listed. -/
def Memory.empty : Memory := ⟨[]⟩

/-- The Display Buffer D (R38): 32 rows of 64 one-bit pixels, bit `x` of row `y` the pixel at `(x, y)`, which is
`D[y * 64 + x]`. The instructions combine pixels by XOR (R201), and a pixel is 0 or 1 by its type (R205;
log 13). -/
structure Display where
  rows : Vector (BitVec 64) 32
deriving DecidableEq, Repr

/-- The display with every pixel 0. -/
def Display.blank : Display := ⟨Vector.replicate 32 0⟩

/-- The machine state: the pair of CPU state and Bus state (R20). -/
structure State where
  /-- V0..VF (R21). -/
  v : Vector Byte 16
  /-- The index register I (R24). -/
  i : Word
  /-- The program counter PC (R25). -/
  pc : Word
  /-- The call stack's entries S[0..15] (R29). -/
  stack : Vector Word 16
  /-- The depth counter SP, 0..16: how many entries are valid (R29). -/
  sp : Fin 17
  /-- The halted bit (R36). -/
  halted : Bool
  /-- The error record (R35). -/
  err : ErrRecord
  /-- Memory M (R37). -/
  mem : Memory
  /-- The Display Buffer D (R38). -/
  display : Display
  /-- The delay timer DT (R39). -/
  dt : Byte
  /-- The Input Latch K: NONE or one key code (R40). -/
  key : Option Key
  /-- The MODEL'S OWN field, not the spec's: how many free values the run has taken (log 4). -/
  freeIndex : Nat
deriving DecidableEq, Repr

/-- Reasons for the machine to stop. No step raises one: the spec's fatal errors are taken as next states
(R245). -/
inductive Fault where
  /-- Raised by `loadRom` alone, for a ROM longer than 3584 bytes: "fatal at startup, surfaced before any
  instruction executes" (R244). Safe: no state follows it. -/
  | romLoadFailure (length : Nat)
deriving DecidableEq, Repr

/-- Reasons for the model to give no meaning. -/
inductive Refusal where
  /-- Raised by an arm of `exec` for an instruction that has no meaning yet; no arm raises it now. Safe: no
  state follows it. -/
  | notModelled (mnemonic : String)
deriving DecidableEq, Repr

/-- The reset values the spec leaves OPEN, as arguments (R45, D4). -/
structure ResetParams where
  /-- RESET_V. -/
  v : Vector Byte 16
  /-- RESET_I. -/
  i : Word
  /-- RESET_DT. -/
  dt : Byte
  /-- RESET_DISPLAY. -/
  display : Display
  /-- MEM_IMAGE. -/
  mem : Memory
deriving DecidableEq, Repr

/-- The spec's recommended instance: all zeros (R45, D4; log 1, log 2). -/
def ResetParams.zero : ResetParams :=
  { v := Vector.replicate 16 0, i := 0, dt := 0, display := .blank, mem := .empty }

/-- The state after reset, for given OPEN values (R45, R280). -/
def State.resetWith (p : ResetParams) : State :=
  { v := p.v, i := p.i, pc := 0x200, stack := Vector.replicate 16 0, sp := 0, halted := false,
    err := .clear, mem := p.mem, display := p.display, dt := p.dt, key := none, freeIndex := 0 }

/-- The state right after reset, in the recommended instance (R45). -/
def State.reset : State := State.resetWith .zero

end Sys2Proof.Machine
end

