-- ==== Sys2Proof/Machine/Ops.lean ====
section
/-! DEFINITION. The operations instructions are made of: registers, memory (20_memory.md R60 to R69), the call
stack (10_state.md R31, R32), the display (43_display.md R200, R201), the device ports (10_state.md R42),
taking a fatal error (60_exceptions.md R245, R246) and leaving it by reset (R248, R280). -/

namespace Sys2Proof.Machine

/-! ### Registers -/

/-- `V[r]` (R9, R21). -/
def State.readV (s : State) (r : Reg) : Byte := s.v[r.val]

/-- `V[r] <- b` (R9, R21). -/
def State.writeV (s : State) (r : Reg) (b : Byte) : State := { s with v := s.v.set r.val b }

/-- `I <- w` (R24). -/
def State.setI (s : State) (w : Word) : State := { s with i := w }

/-- `pc <- w` (R26). -/
def State.setPc (s : State) (w : Word) : State := { s with pc := w }

/-! ### Memory -/

/-- What an address that memory does not list reads as: MEM_IMAGE of the recommended instance (R45, D4;
log 2). -/
def Memory.unlisted : Byte := 0

/-- The byte that a list of cells holds at `a`. -/
def readCells : List Host.Cell → Nat → Byte
  | [], _ => Memory.unlisted
  | c :: cs, a => if c.1 = a then c.2 else readCells cs a

/-- The cells with `b` at `a`, in the canonical form. -/
def writeCells : List Host.Cell → Nat → Byte → List Host.Cell
  | [], a, b => if b = Memory.unlisted then [] else [(a, b)]
  | c :: cs, a, b =>
    if a < c.1 then (if b = Memory.unlisted then c :: cs else (a, b) :: c :: cs)
    else if a = c.1 then (if b = Memory.unlisted then cs else (a, b) :: cs)
    else c :: writeCells cs a b

/-- The cells rise strictly from `low` on, lie below 4096 and differ from the unlisted value. -/
def cellsFrom (low : Nat) : List Host.Cell → Bool
  | [] => true
  | c :: cs => decide (low ≤ c.1) && decide (c.1 < memSize) && decide (c.2 ≠ Memory.unlisted)
      && cellsFrom (c.1 + 1) cs

/-- The canonical form of memory: addresses strictly rising and in bounds (R37), no entry equal to what an
unlisted address reads as. -/
def Memory.wf (m : Memory) : Bool := cellsFrom 0 m.cells

/-- `M[a]` (R62). -/
def Memory.read (m : Memory) (a : Nat) : Byte := readCells m.cells a

/-- `M[a] <- b` (R63). -/
def Memory.write (m : Memory) (a : Nat) (b : Byte) : Memory := ⟨writeCells m.cells a b⟩

/-- `MemRead(a, 1)`: none when `a` is out of bounds, where the reader raises OutOfBounds (R61, R62). -/
def Memory.access (m : Memory) (a : Nat) : Option Byte := if a < memSize then some (m.read a) else none

/-- The first of the `count` addresses from `a` on that is out of bounds, in ascending order (R61, R68). -/
def firstOutOfBounds : Nat → Nat → Option Nat
  | _, 0 => none
  | a, count + 1 => if a < memSize then firstOutOfBounds (a + 1) count else some a

/-- Store bytes from `a` on, in ascending order, each only where `lands` says so. -/
def Memory.storeWhere (lands : Nat → Bool) : Memory → Nat → List Byte → Memory
  | m, _, [] => m
  | m, a, b :: bs => Memory.storeWhere lands (if lands a then m.write a b else m) (a + 1) bs

/-- Store bytes from `a` on, in ascending order (R66, R68). -/
def Memory.store (m : Memory) (a : Nat) (bytes : List Byte) : Memory :=
  m.storeWhere (fun _ => true) a bytes

/-! ### The call stack -/

/-- `Push(v)`: none when the stack is full, where the caller raises OutOfBounds (R31). -/
def State.push (s : State) (w : Word) : Option State :=
  if h : s.sp.val < stackDepth then
    some { s with stack := s.stack.set s.sp.val w, sp := ⟨s.sp.val + 1, Nat.succ_lt_succ h⟩ }
  else none

/-- `Pop()`: the popped value and the state after it, none when the stack is empty, where the caller raises
StackUnderflow (R32). -/
def State.pop (s : State) : Option (Word × State) :=
  if h : s.sp.val = 0 then none
  else some (s.stack[s.sp.val - 1]'(by omega), { s with sp := ⟨s.sp.val - 1, by omega⟩ })

/-! ### The Display Buffer -/

/-- The pixel at `(x, y)`, `D[y * 64 + x]` (R38). -/
def Display.pixel (d : Display) (x y : Nat) : Bool :=
  if h : y < displayHeight then (d.rows[y]'h).getLsbD x else false

/-- `DispClear()`: every pixel 0 (R200). -/
def Display.clear (_ : Display) : Display := .blank

/-- Bit `i` of a sprite row, most-significant bit first: `(row >> (7 - i)) & 1` (R201). -/
def spriteBit (row : Byte) (i : Nat) : Bool := row.getLsbD (7 - i)

/-- One turn of the blit's loop, on the pixels of its display row and the collision so far:
`px = (x + i) mod 64`, `old ^ b`, collision when both are 1 (R201). -/
def blitPixel (row : Byte) (x : Nat) (acc : BitVec 64 × Bool) (i : Nat) : BitVec 64 × Bool :=
  (acc.1 ^^^ (if spriteBit row i then BitVec.twoPow 64 ((x + i) % displayWidth) else 0),
   acc.2 || (acc.1.getLsbD ((x + i) % displayWidth) && spriteBit row i))

/-- The blit's loop over the eight bits of `row` (R201). -/
def blitRow (row : Byte) (x : Nat) (pixels : BitVec 64) : BitVec 64 × Bool :=
  [0, 1, 2, 3, 4, 5, 6, 7].foldl (blitPixel row x) (pixels, false)

/-- `DispBlit(row, x, y)`: the display after it and the collision; a row below the last line is clipped
(R201, D9). -/
def Display.blit (d : Display) (row : Byte) (x y : Nat) : Display × Bool :=
  if h : y < displayHeight then
    (⟨d.rows.set y (blitRow row x (d.rows[y]'h)).1 h⟩, (blitRow row x (d.rows[y]'h)).2)
  else (d, false)

/-- What drawing rows left: the display, the OR of the collisions, and the out-of-bounds address it met. -/
structure DrawRun where
  display : Display
  collision : Bool
  failedAt : Option Nat
deriving DecidableEq, Repr

/-- The loop of `Dxyn`: read a row's byte at `a`, blit it at `(x, y)`, then the next row; the byte is read
even when the row is clipped (R203). -/
def drawRows (m : Memory) (x : Nat) : Nat → Nat → Nat → Display → Bool → DrawRun
  | 0, _, _, d, c => ⟨d, c, none⟩
  | rows + 1, a, y, d, c =>
    match m.access a with
    | none => ⟨d, c, some a⟩
    | some row => drawRows m x rows (a + 1) (y + 1) (d.blit row x y).1 (c || (d.blit row x y).2)

/-- Each pixel old or new, as the masks of the display rows say (R246). -/
def Display.blend (mask : Nat → BitVec 64) (old new : Display) : Display :=
  ⟨Vector.ofFn fun y : Fin 32 => (old.rows[y.val] &&& ~~~mask y.val) ||| (new.rows[y.val] &&& mask y.val)⟩

/-! ### Device ports (R42) -/

/-- `KeyQuery()`: the latched code, none for `valid = 0` (R42, R255). -/
def State.keyQuery (s : State) : Option Key := s.key

/-- `KeyConsume()`: K <- NONE (R42). -/
def State.keyConsume (s : State) : State := { s with key := none }

/-- `DtRead()` (R42). -/
def State.dtRead (s : State) : Byte := s.dt

/-- `DtWrite(b)` (R42). -/
def State.dtWrite (s : State) (b : Byte) : State := { s with dt := b }

/-- The byte `RndRead()` answers in this state: a free value (R41, R256; log 6). -/
def State.rndValue (s : State) : Byte := Config.randomByte s.freeIndex

/-- One free value has been taken (log 4). -/
def State.tookFree (s : State) : State := { s with freeIndex := s.freeIndex + 1 }

/-- Put a display in place. -/
def State.setDisplay (s : State) (d : Display) : State := { s with display := d }

/-- Put a memory in place. -/
def State.setMem (s : State) (m : Memory) : State := { s with mem := m }

/-! ### Taking a fatal error, and leaving it -/

/-- A fatal condition with the information its record takes (R240, R245). -/
inductive FatalCause where
  | outOfBounds (op : ErrOp) (addr : Nat)
  | unknownOpcode
  | stackUnderflow
deriving DecidableEq, Repr

/-- `err_kind` of a cause (R240). -/
def FatalCause.kind : FatalCause → ErrKind
  | .outOfBounds _ _ => .outOfBounds
  | .unknownOpcode => .unknownOpcode
  | .stackUnderflow => .stackUnderflow

/-- `err_op` of a cause, NONE unless given (R245). -/
def FatalCause.op : FatalCause → ErrOp
  | .outOfBounds op _ => op
  | .unknownOpcode => .none
  | .stackUnderflow => .none

/-- `err_addr` of a cause, 0 unless given (R245); every address that can be reported has 16 bits (log 16). -/
def FatalCause.addr : FatalCause → Word
  | .outOfBounds _ addr => BitVec.ofNat 16 addr
  | .unknownOpcode => 0
  | .stackUnderflow => 0

/-- `raise Fatal`: halt and write the record; PC keeps pc0 and nothing else changes (R245). -/
def State.raiseFatal (s : State) (cause : FatalCause) (word : Word) : State :=
  { s with halted := true,
           err := ⟨cause.kind, cause.op, s.pc, word, cause.addr⟩ }

/-- Reset, the one way out of the halted state: every piece of state at its reset value (R248, R280). The
model's own counter goes on, so that free values after a reset are fresh (log 12). -/
def State.hostReset (s : State) (p : ResetParams) : State :=
  { State.resetWith p with freeIndex := s.freeIndex }

/-- An out-of-bounds store: the bytes before the failing address `bad` are each old or new (R246; log 7). -/
def State.failStore (s : State) (word : Word) (bytes : List Byte) (bad : Nat) : State :=
  ((s.setMem (s.mem.storeWhere (Config.partialBytes s.freeIndex) s.i.toNat
      (bytes.take (bad - s.i.toNat)))).tookFree).raiseFatal (.outOfBounds .write bad) word

/-! ### Fetch -/

/-- Instruction fetch: the byte at pc0, then the byte at pc0 + 1, as a big-endian word; else the address that
failed (R64, R61). -/
def State.fetch (s : State) : Except Nat Word :=
  match s.mem.access s.pc.toNat with
  | none => .error s.pc.toNat
  | some hi =>
    match s.mem.access (s.pc.toNat + 1) with
    | none => .error (s.pc.toNat + 1)
    | some lo => .ok (wordOfBytes hi lo)

/-- The fatal error of a fetch that failed at `addr`; the record's word is 0 (R240, R245). -/
def State.fetchFault (s : State) (addr : Nat) : State := s.raiseFatal (.outOfBounds .fetch addr) 0

/-- The fatal error of a word that is no instruction (R242). -/
def State.unknownOpcode (s : State) (word : Word) : State := s.raiseFatal .unknownOpcode word

/-- A state whose next step fetches `word`: the word at the PC, high byte first, the block not halted, and
the PC at the entry point if it stood where no fetch succeeds (log 11). -/
def State.placeWord (s : State) (word : Word) : State :=
  let pc : Word := if s.pc.toNat + 1 < memSize then s.pc else 0x200
  { s with mem := s.mem.store pc.toNat [hiByte word, loByte word], pc := pc, halted := false }

end Sys2Proof.Machine
end

