-- ==== Sys2Proof/Machine/Operands.lean ====
section
/-! DEFINITION. Operand forms (30_encoding.md R93, R97; 42_index_memory.md R186): how an instruction reads its
operands, and where PC goes next (00_scope.md R9). -/

namespace Sys2Proof.Machine

/-- `next = (pc0 + 2) mod 2^16` (R9). -/
def State.nextPc (s : State) : Word := s.pc + 2

/-- `skipnext = (pc0 + 4) mod 2^16` (R9). -/
def State.skipPc (s : State) : Word := s.pc + 4

/-- `pc <- next` (R26). -/
def State.advance (s : State) : State := s.setPc s.nextPc

/-- `pc <- skipnext` when the condition holds, else `pc <- next`; the skipped word is not read (R127). -/
def State.skipIf (s : State) (c : Bool) : State := s.setPc (if c then s.skipPc else s.nextPc)

/-- `zext_16(nnn)` (R93). -/
def zextAddr (nnn : Addr12) : Word := nnn.setWidth 16

/-- `zext_16` of a byte (R8). -/
def zextByte (b : Byte) : Word := b.setWidth 16

/-- `zext_8(k)` of a key code (R220). -/
def zextKey (k : Key) : Byte := k.setWidth 8

/-- `pressed(b)`: the latch holds a code equal to `b` as an 8-bit value (R225). -/
def State.pressed (s : State) (b : Byte) : Bool :=
  match s.keyQuery with
  | none => false
  | some k => zextKey k == b

/-- Reading register `r` as an operand after the instruction's own write: `before` is the state at decode,
`after` the state with that write. Where the two agree the parameter is not asked; where they differ it
decides (R97, R161). -/
def lateOperand (mode : VfSampling) (before after : State) (r : Reg) : Byte :=
  if before.readV r = after.readV r then before.readV r
  else
    match mode with
    | .latched => before.readV r
    | .sequential => after.readV r

/-- The three bytes `Fx33` stores: hundreds, tens, ones (R183). -/
def bcdBytes (b : Byte) : List Byte :=
  [BitVec.ofNat 8 (b.toNat / 100), BitVec.ofNat 8 (b.toNat / 10 % 10), BitVec.ofNat 8 (b.toNat % 10)]

/-- The bytes V0..Vx, V0 first (R184). -/
def State.dumpBytes (s : State) (x : Reg) : List Byte := s.v.toList.take (x.val + 1)

/-- `Vx * 5` as the 16-bit font address (R182). -/
def fontAddr (b : Byte) : Word := BitVec.ofNat 16 (b.toNat * fontGlyphBytes)

/-- The registers with the first `count` loaded from memory at I, each only where `lands` says so (R185). -/
def State.loadedRegs (s : State) (count : Nat) (lands : Nat → Bool) : Vector Byte 16 :=
  Vector.ofFn fun k : Reg =>
    if k.val < count && lands k.val then s.mem.read (s.i.toNat + k.val) else s.readV k

/-- Put the registers in place. -/
def State.setV (s : State) (v : Vector Byte 16) : State := { s with v := v }

/-- Store bytes from I on, or raise OutOfBounds at the first address out of bounds; then `pc <- next`
(R183, R184). -/
def State.storeAtI (s : State) (word : Word) (bytes : List Byte) : State :=
  match firstOutOfBounds s.i.toNat bytes.length with
  | none => (s.setMem (s.mem.store s.i.toNat bytes)).advance
  | some bad => s.failStore word bytes bad

/-- Load V0..Vx from I on, or raise OutOfBounds at the first address out of bounds, with the registers before
the failing one each old or new (R246; log 7); then `pc <- next` (R185). -/
def State.loadAtI (s : State) (word : Word) (x : Reg) : State :=
  match firstOutOfBounds s.i.toNat (x.val + 1) with
  | none => (s.setV (s.loadedRegs (x.val + 1) fun _ => true)).advance
  | some bad =>
    ((s.setV (s.loadedRegs (bad - s.i.toNat) (Config.partialRegs s.freeIndex))).tookFree).raiseFatal
      (.outOfBounds .read bad) word

end Sys2Proof.Machine
end

