-- ==== Sys2Proof/Machine/Flags.lean ====
section
/-! DEFINITION. The four computations of VF as a flag (10_state.md R22): carry, not-borrow, the bit shifted
out, and collision (the last is computed by the blit, Ops.lean). -/

namespace Sys2Proof.Machine

/-- A flag as VF holds it: 1 or 0 (R156). -/
def flagByte (f : Bool) : Byte := if f then 1 else 0

/-- Carry out of bit 7: `vx + vy > 255` (R156). -/
def carryOf (a b : Byte) : Bool := decide (255 < a.toNat + b.toNat)

/-- Not-borrow: `vx > vy` strictly, so equal operands are a borrow (R157, C6). -/
def notBorrowOf (a b : Byte) : Bool := decide (b.toNat < a.toNat)

/-- The bit a right shift by one moves out: the old bit 0 (R158). -/
def shiftedOutOf (a : Byte) : Bool := a.getLsbD 0

/-- Write VF as a flag (R22). -/
def State.setFlag (s : State) (f : Bool) : State := s.writeV vF (flagByte f)

end Sys2Proof.Machine
end

