-- ==== Sys2Proof/Machine/Alu.lean ====
section
/-! DEFINITION. Register and arithmetic instructions (41_alu.md R150 to R161). -/

namespace Sys2Proof.Machine

/-- LD Vx, kk (R150). -/
def execLdVxKk (x : Reg) (kk : Byte) (s : State) : Host.Outcome State Fault Refusal :=
  .next (s.writeV x kk).advance

/-- ADD Vx, kk, wrapping, no flag (R151). -/
def execAddVxKk (x : Reg) (kk : Byte) (s : State) : Host.Outcome State Fault Refusal :=
  .next (s.writeV x (s.readV x + kk)).advance

/-- LD Vx, Vy (R152). -/
def execLdVxVy (x y : Reg) (s : State) : Host.Outcome State Fault Refusal :=
  .next (s.writeV x (s.readV y)).advance

/-- OR Vx, Vy; VF is kept unless x = F (R153, D13). -/
def execOrVxVy (x y : Reg) (s : State) : Host.Outcome State Fault Refusal :=
  .next (s.writeV x (s.readV x ||| s.readV y)).advance

/-- AND Vx, Vy; VF is kept unless x = F (R154, D13). -/
def execAndVxVy (x y : Reg) (s : State) : Host.Outcome State Fault Refusal :=
  .next (s.writeV x (s.readV x &&& s.readV y)).advance

/-- XOR Vx, Vy; VF is kept unless x = F (R155, D13). -/
def execXorVxVy (x y : Reg) (s : State) : Host.Outcome State Fault Refusal :=
  .next (s.writeV x (s.readV x ^^^ s.readV y)).advance

/-- ADD Vx, Vy: Vx takes the low byte of the sum, then VF the carry (R156). -/
def execAddVxVy (x y : Reg) (s : State) : Host.Outcome State Fault Refusal :=
  .next ((s.writeV x (s.readV x + s.readV y)).setFlag (carryOf (s.readV x) (s.readV y))).advance

/-- SUB in a given sampling mode: VF first, then Vx (R157, R161). -/
def subResult (mode : VfSampling) (x y : Reg) (s : State) : State :=
  let t := s.setFlag (notBorrowOf (s.readV x) (s.readV y))
  (t.writeV x (lateOperand mode s t x - lateOperand mode s t y)).advance

/-- SUB Vx, Vy (R157), in the mode the machine has (R97; log 5). -/
def execSubVxVy (x y : Reg) (s : State) : Host.Outcome State Fault Refusal :=
  .next (subResult Config.vfOperandSampling x y s)

/-- SHR in a given sampling mode: VF first, then Vx (R158, R161). -/
def shrResult (mode : VfSampling) (x : Reg) (s : State) : State :=
  let t := s.setFlag (shiftedOutOf (s.readV x))
  (t.writeV x (lateOperand mode s t x >>> 1)).advance

/-- SHR Vx; `y` is not used (R158, R93), in the mode the machine has (R97; log 5). -/
def execShrVx (x _y : Reg) (s : State) : Host.Outcome State Fault Refusal :=
  .next (shrResult Config.vfOperandSampling x s)

/-- RND Vx, kk: one draw of the random source, masked (R159; log 6). -/
def execRndVxKk (x : Reg) (kk : Byte) (s : State) : Host.Outcome State Fault Refusal :=
  .next ((s.writeV x (s.rndValue &&& kk)).tookFree).advance

end Sys2Proof.Machine
end

