-- ==== Sys2Proof/Machine/ControlFlow.lean ====
section
/-! DEFINITION. Control transfer (40_control_flow.md R120 to R129). -/

namespace Sys2Proof.Machine

/-- RET: `pc <- Pop()`, StackUnderflow on an empty stack (R120, R32, R243). -/
def execRet (s : State) : Host.Outcome State Fault Refusal :=
  match s.pop with
  | none => .next (s.raiseFatal .stackUnderflow (encode .ret))
  | some (target, t) => .next (t.setPc target)

/-- JP nnn (R121). -/
def execJp (nnn : Addr12) (s : State) : Host.Outcome State Fault Refusal :=
  .next (s.setPc (zextAddr nnn))

/-- CALL nnn: `Push(next)`, then `pc <- nnn`; a full stack raises OutOfBounds with op PUSH and addr SP
(R122, R31). -/
def execCall (nnn : Addr12) (s : State) : Host.Outcome State Fault Refusal :=
  match s.push s.nextPc with
  | none => .next (s.raiseFatal (.outOfBounds .push s.sp.val) (encode (.call nnn)))
  | some t => .next (t.setPc (zextAddr nnn))

/-- SE Vx, kk (R123). -/
def execSeVxKk (x : Reg) (kk : Byte) (s : State) : Host.Outcome State Fault Refusal :=
  .next (s.skipIf (s.readV x == kk))

/-- SNE Vx, kk (R124). -/
def execSneVxKk (x : Reg) (kk : Byte) (s : State) : Host.Outcome State Fault Refusal :=
  .next (s.skipIf (s.readV x != kk))

/-- SNE Vx, Vy (R125). -/
def execSneVxVy (x y : Reg) (s : State) : Host.Outcome State Fault Refusal :=
  .next (s.skipIf (s.readV x != s.readV y))

/-- JP V0, nnn: the sum is not reduced to 12 bits (R126, D10). -/
def execJpV0Nnn (nnn : Addr12) (s : State) : Host.Outcome State Fault Refusal :=
  .next (s.setPc (zextAddr nnn + zextByte (s.readV v0)))

end Sys2Proof.Machine
end

