-- ==== Sys2Proof/Machine/DisplayInstr.lean ====
section
/-! DEFINITION. Display instructions (43_display.md R202, R203). -/

namespace Sys2Proof.Machine

/-- CLS (R202). -/
def execCls (s : State) : Host.Outcome State Fault Refusal :=
  .next (s.setDisplay s.display.clear).advance

/-- The rows a `Dxyn` draws from this state, with coordinates Vx and Vy read before any write (R203). -/
def drawFrom (x y : Reg) (n : Fin 16) (s : State) : DrawRun :=
  drawRows s.mem (s.readV x).toNat n.val s.i.toNat (s.readV y).toNat s.display false

/-- What a `Dxyn` makes of the rows it drew: the display, then VF as the collision (R203). On OutOfBounds each
pixel of the rows before the failing one is old or new, and VF is not written (R246; log 7). -/
def State.finishDraw (s : State) (run : DrawRun) (word : Word) : State :=
  match run.failedAt with
  | none => ((s.setDisplay run.display).setFlag run.collision).advance
  | some bad =>
    ((s.setDisplay (Display.blend (Config.partialPixels s.freeIndex) s.display run.display)).tookFree).raiseFatal
      (.outOfBounds .read bad) word

/-- DRW Vx, Vy, n (R203). -/
def execDrwVxVyN (x y : Reg) (n : Fin 16) (s : State) : Host.Outcome State Fault Refusal :=
  .next (s.finishDraw (drawFrom x y n s) (encode (.drwVxVyN x y n)))

end Sys2Proof.Machine
end

