-- ==== Sys2Proof/Machine/IndexMemory.lean ====
section
/-! DEFINITION. Index register and memory instructions (42_index_memory.md R180 to R186). -/

namespace Sys2Proof.Machine

/-- LD I, nnn (R180). -/
def execLdINnn (nnn : Addr12) (s : State) : Host.Outcome State Fault Refusal :=
  .next (s.setI (zextAddr nnn)).advance

/-- ADD I, Vx, modulo 2^16, no flag (R181). -/
def execAddIVx (x : Reg) (s : State) : Host.Outcome State Fault Refusal :=
  .next (s.setI (s.i + zextByte (s.readV x))).advance

/-- LD F, Vx: the full byte times 5 (R182, D11). -/
def execLdFVx (x : Reg) (s : State) : Host.Outcome State Fault Refusal :=
  .next (s.setI (fontAddr (s.readV x))).advance

/-- LD B, Vx: hundreds, tens, ones at I, I + 1, I + 2 (R183). -/
def execLdBVx (x : Reg) (s : State) : Host.Outcome State Fault Refusal :=
  .next (s.storeAtI (encode (.ldBVx x)) (bcdBytes (s.readV x)))

/-- LD [I], Vx: V0..Vx to memory from I on; I is kept (R184, D12). -/
def execLdMemIVx (x : Reg) (s : State) : Host.Outcome State Fault Refusal :=
  .next (s.storeAtI (encode (.ldMemIVx x)) (s.dumpBytes x))

/-- LD Vx, [I]: V0..Vx from memory at I; I is kept (R185, D12). -/
def execLdVxMemI (x : Reg) (s : State) : Host.Outcome State Fault Refusal :=
  .next (s.loadAtI (encode (.ldVxMemI x)) x)

end Sys2Proof.Machine
end

