-- ==== Sys2Proof/Machine/TimerInput.lean ====
section
/-! DEFINITION. Key and timer instructions (44_timer_input.md R220 to R225). -/

namespace Sys2Proof.Machine

/-- SKP Vx (R220). -/
def execSkpVx (x : Reg) (s : State) : Host.Outcome State Fault Refusal :=
  .next (s.skipIf (s.pressed (s.readV x)))

/-- SKNP Vx (R221). -/
def execSknpVx (x : Reg) (s : State) : Host.Outcome State Fault Refusal :=
  .next (s.skipIf (!s.pressed (s.readV x)))

/-- LD Vx, DT (R222). -/
def execLdVxDt (x : Reg) (s : State) : Host.Outcome State Fault Refusal :=
  .next (s.writeV x s.dtRead).advance

/-- LD DT, Vx (R223). -/
def execLdDtVx (x : Reg) (s : State) : Host.Outcome State Fault Refusal :=
  .next (s.dtWrite (s.readV x)).advance

/-- LD Vx, K: with no key latched the step changes nothing, PC included; with a key it is stored and
consumed (R224, C3, D7). -/
def execLdVxK (x : Reg) (s : State) : Host.Outcome State Fault Refusal :=
  match s.keyQuery with
  | none => .next s
  | some k => .next ((s.writeV x (zextKey k)).keyConsume).advance

end Sys2Proof.Machine
end

