-- ==== Sys2Proof/Machine/Step.lean ====
section
/-! DEFINITION. One step (30_encoding.md R96) and the host's way to place an instruction before it. -/

namespace Sys2Proof.Machine

/-- `Step()`: nothing while halted (R36, R248); else fetch (R64), decode (R95), execute. A fetch that fails
and a word that is no instruction take the fatal error of R245. -/
def step (s : State) : Host.Outcome State Fault Refusal :=
  if s.halted then .next s
  else
    match s.fetch with
    | .error addr => .next (s.fetchFault addr)
    | .ok w =>
      match decode w with
      | .error _ => .next (s.unknownOpcode w)
      | .ok i => exec i s

/-- The state whose next step fetches and runs the table row's word `w` of `nbits` bits (log 11). -/
def State.withFetchWord (s : State) (nbits w : Nat) : State := s.placeWord (tableWord nbits w)

end Sys2Proof.Machine
end

