-- ==== Sys2Proof/Machine/HostActions.lean ====
section
/-! DEFINITION. What the host can do between steps (70_reset_and_hazards.md R280 to R286; 60_exceptions.md R253,
R255; 10_state.md R35, R42). -/

namespace Sys2Proof.Machine

/-- `tick()`: one down, never below 0 (R253). -/
def State.tick (s : State) : State := if s.dt.toNat = 0 then s else { s with dt := s.dt - 1 }

/-- The host sets the latch to a key code or to NONE (R255). -/
def State.setKey (s : State) (k : Option Key) : State := { s with key := k }

/-- `snapshot()`: the display, read only (R204). -/
def State.snapshot (s : State) : Display := s.display

/-- The host-readable status ports, with the codes and widths of R35 and R42. -/
structure StatusPorts where
  halted : Bool
  errKind : BitVec 2
  errOp : BitVec 3
  errPc : Word
  errWord : Word
  errAddr : Word
deriving DecidableEq, Repr

/-- The code of `err_kind` (R35, R240). -/
def ErrKind.code : ErrKind → BitVec 2
  | .none => 0
  | .outOfBounds => 1
  | .unknownOpcode => 2
  | .stackUnderflow => 3

/-- The code of `err_op` (R35). -/
def ErrOp.code : ErrOp → BitVec 3
  | .none => 0
  | .fetch => 1
  | .read => 2
  | .write => 3
  | .push => 4

/-- Reading the status changes nothing (R286); this is what it reads (R35, R36, R42). -/
def State.statusPorts (s : State) : StatusPorts :=
  ⟨s.halted, s.err.kind.code, s.err.op.code, s.err.pc, s.err.word, s.err.addr⟩

/-- ROM load: the bytes verbatim from 0x200 on, no other byte changed; a ROM longer than 3584 bytes is a load
failure (R283, R244). DESIGN CHOICE: on a repeated load the bytes past the later ROM keep what the earlier one put
there (log 22). -/
def loadRom (rom : List Byte) (s : State) : Host.Outcome State Fault Refusal :=
  if rom.length ≤ romMax then .next (s.setMem (s.mem.store romBase rom))
  else .fault (.romLoadFailure rom.length)

/-- The host's actions (R286). -/
inductive HostAction where
  | requestStep
  | setKey (k : Option Key)
  | tick
  | snapshot
  | readStatus
  | reset (p : ResetParams)
  | loadRom (rom : List Byte)
deriving DecidableEq, Repr

/-- The effect of one host action (R286). -/
def hostAct (a : HostAction) (s : State) : Host.Outcome State Fault Refusal :=
  match a with
  | .requestStep => step s
  | .setKey k => .next (s.setKey k)
  | .tick => .next s.tick
  | .snapshot => .next s
  | .readStatus => .next s
  | .reset p => .next (s.hostReset p)
  | .loadRom rom => Sys2Proof.Machine.loadRom rom s

/-- A sequence of host actions, one after another, stopping at a load failure (R244, R286). -/
def hostRun : List HostAction → State → Host.Outcome State Fault Refusal
  | [], s => .next s
  | a :: as, s =>
    match hostAct a s with
    | .next t => hostRun as t
    | .fault r => .fault r
    | .refused r => .refused r

/-- Where a session stands between reset and the first step (R282). -/
inductive SessionPhase where
  | needsLoad | loaded | stepped
deriving DecidableEq, Repr

/-- The order the host keeps: a ROM load before any step, no load after the first step, reset at any time
(R282, R286, D24). DESIGN CHOICE: a second load may follow a first one before the first step, a repeat that the
spec leaves open (log 22). -/
def legalSession : SessionPhase → List HostAction → Bool
  | _, [] => true
  | ph, .requestStep :: as => decide (ph ≠ .needsLoad) && legalSession .stepped as
  | ph, .loadRom _ :: as => decide (ph ≠ .stepped) && legalSession .loaded as
  | _, .reset _ :: as => legalSession .needsLoad as
  | ph, .setKey _ :: as => legalSession ph as
  | ph, .tick :: as => legalSession ph as
  | ph, .snapshot :: as => legalSession ph as
  | ph, .readStatus :: as => legalSession ph as

end Sys2Proof.Machine
end

