-- ==== Sys2Proof/Safety.lean ====
section
/-! DEFINITION. The terms claims use: the parts of the state and what it means to keep one, the invariants of the
machine, and a safe run (one with no fatal error). -/

namespace Sys2Proof.Machine

/-! ### Frames -/

/-- The parts of the state beside the registers V0..VF and PC. -/
inductive Part where
  /-- I (R24). -/
  | index
  /-- The call stack with SP (R29). -/
  | stack
  /-- The halted bit and the error record (R35, R36). -/
  | status
  /-- Memory, byte by byte (R37). -/
  | memory
  /-- The Display Buffer, pixel by pixel (R38). -/
  | display
  /-- DT (R39). -/
  | timer
  /-- K (R40). -/
  | latch
  /-- The model's own counter of free values (log 4). -/
  | free
deriving DecidableEq, Repr

/-- The part is the same after as before. -/
def Part.kept : Part → State → State → Prop
  | .index, s, t => t.i = s.i
  | .stack, s, t => t.sp = s.sp ∧ ∀ k : Fin 16, t.stack[k.val] = s.stack[k.val]
  | .status, s, t => t.halted = s.halted ∧ t.err = s.err
  | .memory, s, t => ∀ a, t.mem.read a = s.mem.read a
  | .display, s, t => ∀ x y, t.display.pixel x y = s.display.pixel x y
  | .timer, s, t => t.dt = s.dt
  | .latch, s, t => t.key = s.key
  | .free, s, t => t.freeIndex = s.freeIndex

/-- Everything but PC, the parts listed and the registers listed is the same after as before. -/
def Keeps (parts : List Part) (regs : List Reg) (s t : State) : Prop :=
  (∀ p, p ∉ parts → p.kept s t) ∧ ∀ r, r ∉ regs → t.readV r = s.readV r

/-- Every byte of memory outside the `count` addresses from `a` on is the same after as before. -/
def KeepsMemoryOutside (a count : Nat) (s t : State) : Prop :=
  ∀ b, (b < a ∨ a + count ≤ b) → t.mem.read b = s.mem.read b

/-- `t` is `s` after a fatal error, read at the host's ports with the codes of R35: halted, the kind, the
operation, PC of the instruction, its word and the address; PC keeps its value (R240, R245). -/
def FatalAt (s t : State) (kind : BitVec 2) (op : BitVec 3) (word addr : Word) : Prop :=
  t.statusPorts = ⟨true, kind, op, s.pc, word, addr⟩ ∧ t.pc = s.pc

/-- The first address out of bounds that accesses from I on report: I itself when it is beyond memory, else
0x1000 (R61, R68). -/
def State.badAtI (s : State) : Word := if s.i.toNat < memSize then 0x1000 else s.i

/-- The sprite of `rows` bytes from address `a` on, drawn with its corner at `(x, y)`, has a 1 bit on the pixel
`(px, py)`: bit `i` of row `r` falls on `((x + i) mod 64, y + r)` (R201, R203). -/
def spriteCovers (m : Memory) (a x y rows px py : Nat) : Bool :=
  (List.range rows).any fun r => (List.range 8).any fun i =>
    py == y + r && px == (x + i) % displayWidth && spriteBit (m.read (a + r)) i

/-! ### Invariants -/

/-- The error record is one that R240 lists, for a block whose PC is `pc`: out of bounds names its operation
and an address beyond memory (16 for a PUSH, and no word for a FETCH), the other kinds name neither, and
StackUnderflow comes from `00EE`. -/
def ErrRecord.legal (e : ErrRecord) (pc : Word) : Bool :=
  decide (e.pc = pc) &&
    match e.kind, e.op with
    | .outOfBounds, .fetch => decide (memSize ≤ e.addr.toNat) && decide (e.word = 0)
    | .outOfBounds, .read => decide (memSize ≤ e.addr.toNat)
    | .outOfBounds, .write => decide (memSize ≤ e.addr.toNat)
    | .outOfBounds, .push => decide (e.addr = 16)
    | .unknownOpcode, .none => decide (e.addr = 0)
    | .stackUnderflow, .none => decide (e.addr = 0) && decide (e.word = 0x00EE)
    | _, _ => false

/-- The record is clear while the block runs, and legal once it has halted (R35, R36, R240). -/
def State.statusOk (s : State) : Bool :=
  if s.halted then s.err.legal s.pc else decide (s.err = .clear)

/-- The model's invariant: memory in its canonical form and the status as R35, R36 and R240 say. -/
def State.Inv (s : State) : Prop := s.mem.wf = true ∧ s.statusOk = true

/-- What R28 says of PC: at most 0x10FE, with every valid stack entry at most 0x1000. -/
def State.PcBounded (s : State) : Prop :=
  s.pc.toNat ≤ 0x10FE ∧ ∀ k : Fin 16, k.val < s.sp.val → s.stack[k.val].toNat ≤ 0x1000

/-- The two states differ at most in stack entries at or above SP, which hold no value a program can observe
(R30). -/
def SameButStale (s t : State) : Prop :=
  s.sp = t.sp ∧ (∀ k : Fin 16, k.val < s.sp.val → s.stack[k.val] = t.stack[k.val]) ∧
    { s with stack := t.stack } = t

/-! ### Safe runs -/

/-- A run of `n` steps is safe when no step of it raises a fatal error (R240, R245). -/
def SafeRun (n : Nat) (s : State) : Prop :=
  ∀ k, k ≤ n → ∃ t, Sys2Proof.core.run k s = .next t ∧ t.halted = false

end Sys2Proof.Machine
end

