-- ==== Sys2Proof/Certificates/Slice0/Obligations.lean ====
section
/-! DEFINITION. The statements for the provers. Each docstring names the rule of the spec that the statement
formalises, or the section it rests on. -/

open Sys2Proof Sys2Proof.Machine

/-! ### The step (30_encoding.md R96, 20_memory.md R64, 60_exceptions.md R242, R245 to R248) -/

/-- R96: when the two bytes at PC decode to an instruction, a step of a block that runs is that instruction's
effect on that state; the meanings move PC themselves. -/
def Obligations.StepRunsDecodedInstruction : Prop :=
  ∀ (s : State) (i : Instr), s.halted = false → s.pc.toNat + 1 < 4096 →
    decode (wordOfBytes (s.mem.read s.pc.toNat) (s.mem.read (s.pc.toNat + 1))) = .ok i →
    step s = exec i s

/-- R64: fetch gives the byte at PC as bits 15..8 and the byte at PC + 1 as bits 7..0; a fetch that leaves memory
raises OutOfBounds with op FETCH and the first failing address, and nothing else changes. -/
def Obligations.FetchIsBigEndianAndBounded : Prop :=
  ∀ s : State,
    (s.pc.toNat + 1 < 4096 → ∃ w, s.fetch = .ok w ∧
      w.extractLsb' 8 8 = s.mem.read s.pc.toNat ∧ w.extractLsb' 0 8 = s.mem.read (s.pc.toNat + 1)) ∧
    (4096 ≤ s.pc.toNat + 1 → s.halted = false → ∃ t, step s = .next t ∧
      FatalAt s t 1 1 0 (if s.pc.toNat < 4096 then 0x1000 else s.pc) ∧ Keeps [.status] [] s t)

/-- R242: a word that is no instruction raises UnknownOpcode with PC and the word, and no other state changes. -/
def Obligations.UnknownWordIsFatal : Prop :=
  ∀ (s : State) (w : Word) (e : DecodeError), s.halted = false → s.fetch = .ok w → decode w = .error e →
    ∃ t, step s = .next t ∧ FatalAt s t 2 0 w 0 ∧ Keeps [.status] [] s t

/-- R248: steps of a halted block do nothing, however many; no host action but reset clears the halted bit or
the record, and reset does. -/
def Obligations.HaltedUntilReset : Prop :=
  (∀ (s : State) (n : Nat), s.halted = true → Sys2Proof.core.run n s = .next s) ∧
  (∀ (s t : State) (a : HostAction), s.halted = true → (∀ p, a ≠ .reset p) → hostAct a s = .next t →
    t.halted = true ∧ t.err = s.err) ∧
  ∀ (s : State) (p : ResetParams), ∃ t, hostAct (.reset p) s = .next t ∧
    t.statusPorts = ⟨false, 0, 0, 0, 0, 0⟩

/-- R245, R240: a step that halts a running block records PC of the instruction, the fetched word (0 when the
fetch failed), a kind that is not NONE, and keeps PC. Rests on the spec's decision D14. -/
def Obligations.FatalRecordHoldsPcAndWord : Prop :=
  ∀ s t : State, s.halted = false → step s = .next t → t.halted = true →
    t.err.pc = s.pc ∧ t.pc = s.pc ∧ t.err.kind ≠ .none ∧
    (∀ w, s.fetch = .ok w → t.err.word = w) ∧ (∀ a, s.fetch = .error a → t.err.word = 0)

/-- Sections 1 of 60_exceptions.md and 3 of 30_encoding.md: every step has a next state; the fatal errors are
next states too (log 9). -/
def Obligations.StepAlwaysAnswersNext : Prop := ∀ s : State, ∃ t, step s = .next t

/-! ### Encoding (30_encoding.md R90 to R100) -/

/-- R92, R99: words of every format, written out from the opcode table, decode to their instructions. -/
def Obligations.WordsOfTheTableDecode : Prop :=
  decodeTableWord 16 0b0000000011100000 = some .cls ∧
  decodeTableWord 16 0b0000000011101110 = some .ret ∧
  decodeTableWord 16 0b0001001010100100 = some (.jp 0x2A4) ∧
  decodeTableWord 16 0b0011001101000010 = some (.seVxKk 3 0x42) ∧
  decodeTableWord 16 0b1000000100100100 = some (.addVxVy 1 2) ∧
  decodeTableWord 16 0b1000101010110110 = some (.shrVx 0xA 0xB) ∧
  decodeTableWord 16 0b1101000000010101 = some (.drwVxVyN 0 1 5) ∧
  decodeTableWord 16 0b1110000010011110 = some (.skpVx 0) ∧
  decodeTableWord 16 0b1111010101010101 = some (.ldMemIVx 5) ∧
  decodeTableWord 16 0b1001101010110001 = none

/-- R92, R93: decoding the bytes of any instruction gives it back, with every operand at every value, and leaves
the bytes after it. -/
def Obligations.DecodeOfEncode : Prop :=
  ∀ (i : Instr) (rest : List Byte), i.wellFormed = true →
    decodeBytes (encodeBytes i ++ rest) = .ok (i, rest)

/-- R95, R99: a word that decodes is the encoding of what it decodes to, so no bit of a word is dropped. -/
def Obligations.EncodeOfDecode : Prop :=
  ∀ (w : Word) (i : Instr), decode w = .ok i → encode i = w

/-- R95, R98, R100: decoding is total; a word decodes to an instruction of the row that covers it, or it is
UnknownOpcode and no row covers it. -/
def Obligations.DecodeAgreesWithTheTable : Prop :=
  ∀ w : Word,
    (∃ i, decode w = .ok i ∧ i.row ∈ opcodeTable ∧ i.row.covers w = true) ∨
    (decode w = .error .unknownOpcode ∧ ∀ r ∈ opcodeTable, r.covers w = false)

/-- R99, R100: no word belongs to two rows of the opcode table. -/
def Obligations.TableRowsDoNotOverlap : Prop :=
  ∀ w : Word, opcodeTable.Pairwise fun a b => ¬ (a.covers w = true ∧ b.covers w = true)

/-! ### Reset and the host (70_reset_and_hazards.md, 10_state.md R45) -/

/-- R45, R280: after reset PC is 0x200, the stack is empty, the latch is empty, the block runs with a clear
record, and the OPEN pieces hold the reset parameters, whatever the state was. -/
def Obligations.ResetPutsTheResetValues : Prop :=
  ∀ (s : State) (p : ResetParams), ∃ t, hostAct (.reset p) s = .next t ∧
    t.pc = 0x200 ∧ t.sp = 0 ∧ t.key = none ∧ t.statusPorts = ⟨false, 0, 0, 0, 0, 0⟩ ∧
    (∀ r : Reg, t.readV r = p.v[r.val]) ∧ t.i = p.i ∧ t.dt = p.dt ∧
    (∀ x y, t.display.pixel x y = p.display.pixel x y) ∧ ∀ a, t.mem.read a = p.mem.read a

/-- R283: the host's load of a ROM that fits puts it verbatim from 0x200 on and changes no other byte; after a
longer one, which is a load failure, no state follows. -/
def Obligations.RomLoadIsVerbatim : Prop :=
  ∀ (rom : List Byte) (s : State), hostAct (.loadRom rom) s = loadRom rom s ∧
    (s.mem.wf = true → rom.length ≤ 3584 → ∃ t, hostAct (.loadRom rom) s = .next t ∧
      (∀ k (hk : k < rom.length), t.mem.read (0x200 + k) = rom[k]) ∧
      KeepsMemoryOutside 0x200 rom.length s t ∧ Keeps [.memory] [] s t ∧ t.pc = s.pc) ∧
    (3584 < rom.length → ∀ t, hostAct (.loadRom rom) s ≠ .next t)

/-- R282: in a session that keeps the order, every step comes after a ROM load with no reset between, and a load
after a step has a reset between. The order is the model's predicate `legalSession` (log 21), which allows a
repeated load before the first step (log 22). -/
def Obligations.StepsComeAfterTheLoad : Prop :=
  (∀ pre post : List HostAction, legalSession .needsLoad (pre ++ .requestStep :: post) = true →
    ∃ before rom after, pre = before ++ .loadRom rom :: after ∧ ∀ p, .reset p ∉ after) ∧
  ∀ (ph : SessionPhase) (mid post : List HostAction) (rom : List Byte),
    legalSession ph (.requestStep :: (mid ++ .loadRom rom :: post)) = true → ∃ p, .reset p ∈ mid

/-- R253: the host's tick takes one from DT and stops at 0, however often it comes, and changes nothing else. -/
def Obligations.TickCountsDownToZero : Prop :=
  (∀ s : State, hostAct .tick s = .next s.tick ∧ s.tick.dt.toNat = s.dt.toNat - 1 ∧
    Keeps [.timer] [] s s.tick ∧ s.tick.pc = s.pc) ∧
  ∀ (s : State) (n : Nat), ∃ t, hostRun (List.replicate n .tick) s = .next t ∧
    t.dt.toNat = s.dt.toNat - n ∧ Keeps [.timer] [] s t ∧ t.pc = s.pc

/-- Section 2 of 70_reset_and_hazards.md: setting the key changes the latch alone, snapshot and status reads
change nothing. -/
def Obligations.HostActionsKeepTheRest : Prop :=
  ∀ (s : State) (k : Option Key),
    (∃ t, hostAct (.setKey k) s = .next t ∧ t.key = k ∧ Keeps [.latch] [] s t ∧ t.pc = s.pc) ∧
    hostAct .snapshot s = .next s ∧ hostAct .readStatus s = .next s

/-- Section 2 of 70_reset_and_hazards.md: a step request is one step, a tick is `tick()`, a load is the loader's,
and actions take effect one after another. -/
def Obligations.HostActionsHaveTheirEffects : Prop :=
  ∀ (s : State) (rom : List Byte),
    hostAct .requestStep s = step s ∧ hostAct .tick s = .next s.tick ∧
    hostAct (.loadRom rom) s = loadRom rom s ∧ hostRun [] s = .next s ∧
    ∀ (a : HostAction) (as : List HostAction) (t : State), hostAct a s = .next t →
      hostRun (a :: as) s = hostRun as t

/-! ### Control transfer (40_control_flow.md) -/

/-- R121, R126: JP sets PC to nnn, JP V0 to nnn + V0 with no reduction to 12 bits; nothing else changes. -/
def Obligations.JumpsSetPc : Prop :=
  ∀ (nnn : Addr12) (s : State),
    (∃ t, exec (.jp nnn) s = .next t ∧ t.pc.toNat = nnn.toNat ∧ Keeps [] [] s t) ∧
    (∃ t, exec (.jpV0Nnn nnn) s = .next t ∧ t.pc.toNat = nnn.toNat + (s.readV 0).toNat ∧ Keeps [] [] s t)

/-- R122, R31: CALL pushes PC + 2 and sets PC to nnn; on a full stack it raises OutOfBounds with op PUSH and
address 16, and nothing else changes. -/
def Obligations.CallPushesTheReturnAddress : Prop :=
  ∀ (nnn : Addr12) (s : State),
    (∀ hs : s.sp.val < 16, ∃ t, exec (.call nnn) s = .next t ∧ t.pc.toNat = nnn.toNat ∧
      t.sp.val = s.sp.val + 1 ∧ t.stack[s.sp.val] = s.pc + 2 ∧
      (∀ k : Fin 16, k.val ≠ s.sp.val → t.stack[k.val] = s.stack[k.val]) ∧ Keeps [.stack] [] s t) ∧
    (s.sp.val = 16 → ∃ t, exec (.call nnn) s = .next t ∧ FatalAt s t 1 4 (encode (.call nnn)) 16 ∧
      Keeps [.status] [] s t)

/-- R120, R32: RET sets PC to the top entry as it is and takes it off; on an empty stack it raises
StackUnderflow with the word 0x00EE, and nothing else changes. -/
def Obligations.ReturnPopsTheTopEntry : Prop :=
  ∀ s : State,
    (∀ hs : 0 < s.sp.val, ∃ t, exec .ret s = .next t ∧ t.pc = s.stack[s.sp.val - 1] ∧
      t.sp.val = s.sp.val - 1 ∧ (∀ k : Fin 16, t.stack[k.val] = s.stack[k.val]) ∧ Keeps [.stack] [] s t) ∧
    (s.sp.val = 0 → ∃ t, exec .ret s = .next t ∧ FatalAt s t 3 0 0x00EE 0 ∧ Keeps [.status] [] s t)

/-- The document's call example (95_test_vectors.md W6): a RET in any state that has the stack a CALL left goes
to the address after the call, with the stack as deep as before it. -/
def Obligations.ReturnGoesAfterTheCall : Prop :=
  ∀ (nnn : Addr12) (s t u : State), s.sp.val < 16 → exec (.call nnn) s = .next t → u.sp = t.sp →
    u.stack = t.stack → ∃ r, exec .ret u = .next r ∧ r.pc = s.pc + 2 ∧ r.sp = s.sp ∧
      ∀ k : Fin 16, k.val < s.sp.val → r.stack[k.val] = s.stack[k.val]

/-- R123, R124, R125: the skips on register values go to PC + 4 when their condition holds, else to PC + 2, and
change nothing else. -/
def Obligations.RegisterSkips : Prop :=
  ∀ (x y : Reg) (kk : Byte) (s : State),
    (∃ t, exec (.seVxKk x kk) s = .next t ∧
      t.pc = (if s.readV x = kk then s.pc + 4 else s.pc + 2) ∧ Keeps [] [] s t) ∧
    (∃ t, exec (.sneVxKk x kk) s = .next t ∧
      t.pc = (if s.readV x ≠ kk then s.pc + 4 else s.pc + 2) ∧ Keeps [] [] s t) ∧
    (∃ t, exec (.sneVxVy x y) s = .next t ∧
      t.pc = (if s.readV x ≠ s.readV y then s.pc + 4 else s.pc + 2) ∧ Keeps [] [] s t)

/-- R26: PC after an instruction, by instruction, and kept when it ends in a fatal error. -/
def Obligations.PcFollowsTheSummary : Prop :=
  ∀ (i : Instr) (s t : State), s.halted = false → exec i s = .next t →
    (t.halted = true → t.pc = s.pc) ∧
    (t.halted = false →
      match i with
      | .jp nnn => t.pc.toNat = nnn.toNat
      | .call nnn => t.pc.toNat = nnn.toNat
      | .ret => ∃ hs : 0 < s.sp.val, t.pc = s.stack[s.sp.val - 1]
      | .jpV0Nnn nnn => t.pc.toNat = nnn.toNat + (s.readV 0).toNat
      | .seVxKk x kk => t.pc = if s.readV x = kk then s.pc + 4 else s.pc + 2
      | .sneVxKk x kk => t.pc = if s.readV x ≠ kk then s.pc + 4 else s.pc + 2
      | .sneVxVy x y => t.pc = if s.readV x ≠ s.readV y then s.pc + 4 else s.pc + 2
      | .skpVx x => t.pc = if s.key.map BitVec.toNat = some (s.readV x).toNat then s.pc + 4 else s.pc + 2
      | .sknpVx x => t.pc = if s.key.map BitVec.toNat = some (s.readV x).toNat then s.pc + 2 else s.pc + 4
      | .ldVxK _ => t.pc = if s.key = none then s.pc else s.pc + 2
      | _ => t.pc = s.pc + 2)

/-- Section 4 of 70_reset_and_hazards.md and R121's corner case: a running block whose PC stands at a jump to
itself stays in that state for ever, with no fatal error. -/
def Obligations.SelfJumpParks : Prop :=
  ∀ (s : State) (nnn : Addr12), s.halted = false → s.pc.toNat = nnn.toNat → s.fetch = .ok (encode (.jp nnn)) →
    ∀ n, Sys2Proof.core.run n s = .next s ∧ SafeRun n s

/-! ### Register and arithmetic instructions (41_alu.md) -/

/-- R150, R151, R152: LD Vx, kk; ADD Vx, kk wraps and writes no flag; LD Vx, Vy. Nothing but Vx and PC changes. -/
def Obligations.LoadAddAndCopyWriteVx : Prop :=
  ∀ (x y : Reg) (kk : Byte) (s : State),
    (∃ t, exec (.ldVxKk x kk) s = .next t ∧ t.readV x = kk ∧ t.pc = s.pc + 2 ∧ Keeps [] [x] s t) ∧
    (∃ t, exec (.addVxKk x kk) s = .next t ∧
      (t.readV x).toNat = ((s.readV x).toNat + kk.toNat) % 256 ∧ t.pc = s.pc + 2 ∧ Keeps [] [x] s t) ∧
    (∃ t, exec (.ldVxVy x y) s = .next t ∧ t.readV x = s.readV y ∧ t.pc = s.pc + 2 ∧ Keeps [] [x] s t)

/-- R153, R154, R155: OR, AND and XOR bit by bit; nothing but Vx and PC changes, VF included. -/
def Obligations.BitwiseInstructionsWriteVx : Prop :=
  ∀ (x y : Reg) (s : State),
    (∃ t, exec (.orVxVy x y) s = .next t ∧
      (∀ b, (t.readV x).getLsbD b = ((s.readV x).getLsbD b || (s.readV y).getLsbD b)) ∧
      t.pc = s.pc + 2 ∧ Keeps [] [x] s t) ∧
    (∃ t, exec (.andVxVy x y) s = .next t ∧
      (∀ b, (t.readV x).getLsbD b = ((s.readV x).getLsbD b && (s.readV y).getLsbD b)) ∧
      t.pc = s.pc + 2 ∧ Keeps [] [x] s t) ∧
    (∃ t, exec (.xorVxVy x y) s = .next t ∧
      (∀ b, (t.readV x).getLsbD b = ((s.readV x).getLsbD b != (s.readV y).getLsbD b)) ∧
      t.pc = s.pc + 2 ∧ Keeps [] [x] s t)

/-- R156: ADD Vx, Vy writes the low byte of the sum to Vx and then the carry to VF, so VF ends as the carry also
when it is Vx. -/
def Obligations.AddWritesSumThenCarry : Prop :=
  ∀ (x y : Reg) (s : State), ∃ t, exec (.addVxVy x y) s = .next t ∧
    (x ≠ 15 → (t.readV x).toNat = ((s.readV x).toNat + (s.readV y).toNat) % 256) ∧
    (t.readV 15).toNat = (if 255 < (s.readV x).toNat + (s.readV y).toNat then 1 else 0) ∧
    t.pc = s.pc + 2 ∧ Keeps [] [x, 15] s t

/-- R157: SUB Vx, Vy writes VF as the strict comparison and then Vx as the difference, where VF is neither
operand. The clauses with VF as an operand are those of the table of R161 (marked derived there; D6), for the
machine's sampling mode, which is the model's open constant (log 5). -/
def Obligations.SubWritesNotBorrowThenDifference : Prop :=
  ∀ (x y : Reg) (s : State), ∃ t, exec (.subVxVy x y) s = .next t ∧
    t.pc = s.pc + 2 ∧ Keeps [] [x, 15] s t ∧
    (x ≠ 15 → (t.readV 15).toNat = if (s.readV y).toNat < (s.readV x).toNat then 1 else 0) ∧
    (x ≠ 15 → y ≠ 15 → (t.readV x).toNat = ((s.readV x).toNat + 256 - (s.readV y).toNat) % 256) ∧
    (x ≠ 15 → y = 15 → (t.readV x).toNat =
      match Config.vfOperandSampling with
      | .latched => ((s.readV x).toNat + 256 - (s.readV 15).toNat) % 256
      | .sequential =>
        ((s.readV x).toNat + 256 - (if (s.readV 15).toNat < (s.readV x).toNat then 1 else 0)) % 256) ∧
    (x = 15 → y ≠ 15 → (t.readV 15).toNat =
      match Config.vfOperandSampling with
      | .latched => ((s.readV 15).toNat + 256 - (s.readV y).toNat) % 256
      | .sequential =>
        ((if (s.readV y).toNat < (s.readV 15).toNat then 1 else 0) + 256 - (s.readV y).toNat) % 256) ∧
    (x = 15 → y = 15 → t.readV 15 = 0)

/-- R158: SHR Vx writes VF as the old bit 0 and then Vx as half, for every y. The clause with Vx = VF is that of
the table of R161 (marked derived there; D6), for the machine's sampling mode, which is the model's open constant
(log 5). -/
def Obligations.ShiftWritesOldBitThenHalf : Prop :=
  ∀ (x y : Reg) (s : State), ∃ t, exec (.shrVx x y) s = .next t ∧
    t.pc = s.pc + 2 ∧ Keeps [] [x, 15] s t ∧
    (x ≠ 15 → (t.readV x).toNat = (s.readV x).toNat / 2 ∧ (t.readV 15).toNat = (s.readV x).toNat % 2) ∧
    (x = 15 → (t.readV 15).toNat =
      match Config.vfOperandSampling with
      | .latched => (s.readV 15).toNat / 2
      | .sequential => 0)

/-- The table of R161 (marked derived there) for both values of VF_OPERAND_SAMPLING: SUB and SHR with VF as an
operand and a destination. -/
def Obligations.VfAsOperandInBothSamplingModes : Prop :=
  ∀ (x y : Reg) (s : State),
    (x ≠ 15 → ∀ m, ((subResult m x 15 s).readV 15).toNat =
      if (s.readV 15).toNat < (s.readV x).toNat then 1 else 0) ∧
    (x ≠ 15 → (subResult .latched x 15 s).readV x = s.readV x - s.readV 15 ∧
      (subResult .sequential x 15 s).readV x =
        s.readV x - (if (s.readV 15).toNat < (s.readV x).toNat then 1 else 0)) ∧
    (y ≠ 15 → (subResult .latched 15 y s).readV 15 = s.readV 15 - s.readV y ∧
      (subResult .sequential 15 y s).readV 15 =
        (if (s.readV y).toNat < (s.readV 15).toNat then 1 else 0) - s.readV y) ∧
    (∀ m, (subResult m 15 15 s).readV 15 = 0) ∧
    ((shrResult .latched 15 s).readV 15).toNat = (s.readV 15).toNat / 2 ∧
    (shrResult .sequential 15 s).readV 15 = 0

/-- R159: RND takes one draw of the random source, whatever it is, and writes it masked; the next draw is a
fresh one (the source is the free value of log 6, its number the model's counter of log 4). -/
def Obligations.RandomByteIsMasked : Prop :=
  ∀ (x : Reg) (kk : Byte) (s : State), ∃ t, exec (.rndVxKk x kk) s = .next t ∧
    (∀ b, (t.readV x).getLsbD b = ((Config.randomByte s.freeIndex).getLsbD b && kk.getLsbD b)) ∧
    t.freeIndex = s.freeIndex + 1 ∧ t.pc = s.pc + 2 ∧ Keeps [.free] [x] s t

/-! ### Index register and memory (42_index_memory.md) -/

/-- R180, R181, R182: LD I, nnn; ADD I, Vx modulo 2^16 with no flag; LD F, Vx is Vx * 5. Nothing but I and PC
changes. -/
def Obligations.IndexInstructionsWriteI : Prop :=
  ∀ (nnn : Addr12) (x : Reg) (s : State),
    (∃ t, exec (.ldINnn nnn) s = .next t ∧ t.i.toNat = nnn.toNat ∧ t.pc = s.pc + 2 ∧
      Keeps [.index] [] s t) ∧
    (∃ t, exec (.addIVx x) s = .next t ∧ t.i.toNat = (s.i.toNat + (s.readV x).toNat) % 65536 ∧
      t.pc = s.pc + 2 ∧ Keeps [.index] [] s t) ∧
    (∃ t, exec (.ldFVx x) s = .next t ∧ t.i.toNat = (s.readV x).toNat * 5 ∧ t.pc = s.pc + 2 ∧
      Keeps [.index] [] s t)

/-- R183: LD B stores the three decimal digits of Vx at I, I + 1, I + 2; when one of them is out of bounds it
raises OutOfBounds with op WRITE and the first such address, and each byte before it is old or new. -/
def Obligations.BcdStoresThreeDigits : Prop :=
  ∀ (x : Reg) (s : State), s.mem.wf = true →
    (s.i.toNat + 3 ≤ 4096 → ∃ t, exec (.ldBVx x) s = .next t ∧
      (t.mem.read s.i.toNat).toNat = (s.readV x).toNat / 100 ∧
      (t.mem.read (s.i.toNat + 1)).toNat = (s.readV x).toNat / 10 % 10 ∧
      (t.mem.read (s.i.toNat + 2)).toNat = (s.readV x).toNat % 10 ∧
      KeepsMemoryOutside s.i.toNat 3 s t ∧ t.pc = s.pc + 2 ∧ Keeps [.memory] [] s t) ∧
    (4096 < s.i.toNat + 3 → ∃ t, exec (.ldBVx x) s = .next t ∧
      FatalAt s t 1 3 (encode (.ldBVx x)) s.badAtI ∧
      (∀ k (hk : k < 3), t.mem.read (s.i.toNat + k) = s.mem.read (s.i.toNat + k) ∨
        t.mem.read (s.i.toNat + k) = (bcdBytes (s.readV x))[k]) ∧
      KeepsMemoryOutside s.i.toNat (4096 - s.i.toNat) s t ∧ Keeps [.memory, .status, .free] [] s t)

/-- R184: LD [I], Vx stores V0..Vx from I on and keeps I; when an address is out of bounds it raises OutOfBounds
with op WRITE and the first such address, and each byte before it is old or new. -/
def Obligations.DumpStoresTheRegisters : Prop :=
  ∀ (x : Reg) (s : State), s.mem.wf = true →
    (s.i.toNat + x.val < 4096 → ∃ t, exec (.ldMemIVx x) s = .next t ∧
      (∀ k : Reg, k ≤ x → t.mem.read (s.i.toNat + k.val) = s.readV k) ∧
      KeepsMemoryOutside s.i.toNat (x.val + 1) s t ∧ t.pc = s.pc + 2 ∧ Keeps [.memory] [] s t) ∧
    (4096 ≤ s.i.toNat + x.val → ∃ t, exec (.ldMemIVx x) s = .next t ∧
      FatalAt s t 1 3 (encode (.ldMemIVx x)) s.badAtI ∧
      (∀ k : Reg, k ≤ x → t.mem.read (s.i.toNat + k.val) = s.mem.read (s.i.toNat + k.val) ∨
        t.mem.read (s.i.toNat + k.val) = s.readV k) ∧
      KeepsMemoryOutside s.i.toNat (4096 - s.i.toNat) s t ∧ Keeps [.memory, .status, .free] [] s t)

/-- R185: LD Vx, [I] loads V0..Vx from I on and keeps I and the registers above Vx; when an address is out of
bounds it raises OutOfBounds with op READ and the first such address, and each register before it is old or
new. -/
def Obligations.LoadFillsTheRegisters : Prop :=
  ∀ (x : Reg) (s : State),
    (s.i.toNat + x.val < 4096 → ∃ t, exec (.ldVxMemI x) s = .next t ∧
      (∀ k : Reg, t.readV k = if k ≤ x then s.mem.read (s.i.toNat + k.val) else s.readV k) ∧
      t.pc = s.pc + 2 ∧ ∀ p : Part, p.kept s t) ∧
    (4096 ≤ s.i.toNat + x.val → ∃ t, exec (.ldVxMemI x) s = .next t ∧
      FatalAt s t 1 2 (encode (.ldVxMemI x)) s.badAtI ∧
      (∀ k : Reg, t.readV k = s.readV k ∨
        (s.i.toNat + k.val < 4096 ∧ t.readV k = s.mem.read (s.i.toNat + k.val))) ∧
      ∀ p : Part, p ≠ .status → p ≠ .free → p.kept s t)

/-- The document's round trip (95_test_vectors.md W11): a load by LD Vx, [I] in any state that has the memory
and the I of a dump by LD [I], Vx brings V0..Vx back. -/
def Obligations.LoadAfterDumpRestores : Prop :=
  ∀ (x : Reg) (s t u : State), s.mem.wf = true → s.i.toNat + x.val < 4096 →
    exec (.ldMemIVx x) s = .next t → u.mem = t.mem → u.i = t.i →
    ∃ r, exec (.ldVxMemI x) u = .next r ∧ ∀ k : Reg, k ≤ x → r.readV k = s.readV k

/-- Section 4 of 20_memory.md and section 3 of 70_reset_and_hazards.md: every byte that LD [I], Vx or LD B, Vx
stores is what a later fetch reads, whichever of the two bytes at PC it is, in any state with the memory the
store left. -/
def Obligations.StoredBytesAreFetched : Prop :=
  ∀ (x : Reg) (s : State), s.mem.wf = true →
    (s.i.toNat + x.val < 4096 → ∃ t, exec (.ldMemIVx x) s = .next t ∧
      ∀ u : State, u.mem = t.mem → u.pc.toNat + 1 < 4096 → ∃ w, u.fetch = .ok w ∧
        ∀ k : Reg, k ≤ x →
          (u.pc.toNat = s.i.toNat + k.val → w.extractLsb' 8 8 = s.readV k) ∧
          (u.pc.toNat + 1 = s.i.toNat + k.val → w.extractLsb' 0 8 = s.readV k)) ∧
    (s.i.toNat + 3 ≤ 4096 → ∃ t, exec (.ldBVx x) s = .next t ∧
      ∀ u : State, u.mem = t.mem → u.pc.toNat + 1 < 4096 → ∃ w, u.fetch = .ok w ∧
        ∀ k d, (k, d) ∈ [(0, (s.readV x).toNat / 100), (1, (s.readV x).toNat / 10 % 10),
            (2, (s.readV x).toNat % 10)] →
          (u.pc.toNat = s.i.toNat + k → (w.extractLsb' 8 8).toNat = d) ∧
          (u.pc.toNat + 1 = s.i.toNat + k → (w.extractLsb' 0 8).toNat = d))

/-! ### Display (43_display.md) -/

/-- R202, R200: CLS sets every pixel to 0 and changes nothing else but PC. -/
def Obligations.ClearZeroesEveryPixel : Prop :=
  ∀ s : State, ∃ t, exec .cls s = .next t ∧ (∀ x y, t.display.pixel x y = false) ∧
    t.pc = s.pc + 2 ∧ Keeps [.display] [] s t

/-- R203, R201: DRW XORs the sprite into the display, wrapping columns and clipping rows, and sets VF when a
pixel went from 1 to 0; when a row's address is out of bounds it raises OutOfBounds with op READ and the first
such address, each pixel of the rows before it is old or new, and VF is kept. -/
def Obligations.DrawXorsTheSprite : Prop :=
  ∀ (x y : Reg) (n : Fin 16) (s : State),
    (n.val = 0 ∨ s.i.toNat + n.val ≤ 4096 → ∃ t, exec (.drwVxVyN x y n) s = .next t ∧
      (∀ px py, px < 64 → py < 32 → t.display.pixel px py = (s.display.pixel px py !=
        spriteCovers s.mem s.i.toNat (s.readV x).toNat (s.readV y).toNat n.val px py)) ∧
      (t.readV 15 = 0 ∨ t.readV 15 = 1) ∧
      (t.readV 15 = 1 ↔ ∃ px py, px < 64 ∧ py < 32 ∧ s.display.pixel px py = true ∧
        spriteCovers s.mem s.i.toNat (s.readV x).toNat (s.readV y).toNat n.val px py = true) ∧
      t.pc = s.pc + 2 ∧ Keeps [.display] [15] s t) ∧
    (n.val ≠ 0 → 4096 < s.i.toNat + n.val → ∃ t, exec (.drwVxVyN x y n) s = .next t ∧
      FatalAt s t 1 2 (encode (.drwVxVyN x y n)) s.badAtI ∧
      (∀ px py, px < 64 → py < 32 → t.display.pixel px py = s.display.pixel px py ∨
        t.display.pixel px py = (s.display.pixel px py !=
          spriteCovers s.mem s.i.toNat (s.readV x).toNat (s.readV y).toNat (4096 - s.i.toNat) px py)) ∧
      Keeps [.display, .status, .free] [] s t)

/-- The document's XOR idempotence (95_test_vectors.md W7): drawing a sprite twice at the same place restores
the display, and the second draw collides exactly when the first set a pixel. VF is no coordinate, since the
first draw writes it. -/
def Obligations.DrawTwiceRestores : Prop :=
  ∀ (x y : Reg) (n : Fin 16) (s : State), x ≠ 15 → y ≠ 15 → (n.val = 0 ∨ s.i.toNat + n.val ≤ 4096) →
    ∃ t u, exec (.drwVxVyN x y n) s = .next t ∧ exec (.drwVxVyN x y n) t = .next u ∧
      (∀ px py, u.display.pixel px py = s.display.pixel px py) ∧
      (u.readV 15 = 1 ↔ ∃ px py, px < 64 ∧ py < 32 ∧ s.display.pixel px py = false ∧
        t.display.pixel px py = true)

/-! ### Keys and the timer (44_timer_input.md) -/

/-- R220, R221: SKP skips when the latch holds the code Vx, compared as 8-bit values, SKNP when it does not;
the latch is kept and nothing else changes. -/
def Obligations.KeySkips : Prop :=
  ∀ (x : Reg) (s : State),
    (∃ t, exec (.skpVx x) s = .next t ∧
      t.pc = (if s.key.map BitVec.toNat = some (s.readV x).toNat then s.pc + 4 else s.pc + 2) ∧
      Keeps [] [] s t) ∧
    (∃ t, exec (.sknpVx x) s = .next t ∧
      t.pc = (if s.key.map BitVec.toNat = some (s.readV x).toNat then s.pc + 2 else s.pc + 4) ∧
      Keeps [] [] s t)

/-- R222, R223: LD Vx, DT reads the timer and LD DT, Vx sets it; nothing else but PC changes. -/
def Obligations.TimerIsReadAndSet : Prop :=
  ∀ (x : Reg) (s : State),
    (∃ t, exec (.ldVxDt x) s = .next t ∧ t.readV x = s.dt ∧ t.pc = s.pc + 2 ∧ Keeps [] [x] s t) ∧
    (∃ t, exec (.ldDtVx x) s = .next t ∧ t.dt = s.readV x ∧ t.pc = s.pc + 2 ∧ Keeps [.timer] [] s t)

/-- R224: LD Vx, K with no key latched changes no state at all; with a key it writes the code to Vx, empties the
latch and goes on. -/
def Obligations.WaitForKeyConsumesTheLatch : Prop :=
  ∀ (x : Reg) (s : State),
    (s.key = none → exec (.ldVxK x) s = .next s) ∧
    (∀ k, s.key = some k → ∃ t, exec (.ldVxK x) s = .next t ∧ (t.readV x).toNat = k.toNat ∧
      t.key = none ∧ t.pc = s.pc + 2 ∧ Keeps [.latch] [x] s t)

/-- Section 3 of 70_reset_and_hazards.md: a running block at LD Vx, K with no key latched stays there for any
number of steps. -/
def Obligations.WaitsWhileNoKeyIsLatched : Prop :=
  ∀ (s : State) (x : Reg), s.halted = false → s.key = none → s.fetch = .ok (encode (.ldVxK x)) →
    ∀ n, Sys2Proof.core.run n s = .next s

/-! ### Rules over all instructions (10_state.md) -/

/-- R22: an instruction that changes VF is one of the four that write it as a flag, or has VF as a destination. -/
def Obligations.VfChangesOnlyAsFlagOrDestination : Prop :=
  ∀ (i : Instr) (s t : State), exec i s = .next t → t.readV 15 ≠ s.readV 15 →
    (∃ x y, i = .addVxVy x y) ∨ (∃ x y, i = .subVxVy x y) ∨ (∃ x y, i = .shrVx x y) ∨
    (∃ x y n, i = .drwVxVyN x y n) ∨
    (∃ kk, i = .ldVxKk 15 kk ∨ i = .addVxKk 15 kk ∨ i = .rndVxKk 15 kk) ∨
    (∃ y, i = .ldVxVy 15 y ∨ i = .orVxVy 15 y ∨ i = .andVxVy 15 y ∨ i = .xorVxVy 15 y) ∨
    i = .ldVxDt 15 ∨ i = .ldVxK 15 ∨ i = .ldVxMemI 15

/-- R24: I is changed by Annn, Fx1E and Fx29 only. -/
def Obligations.IndexChangesOnlyByItsWriters : Prop :=
  ∀ (i : Instr) (s t : State), exec i s = .next t → t.i ≠ s.i →
    (∃ nnn, i = .ldINnn nnn) ∨ (∃ x, i = .addIVx x) ∨ ∃ x, i = .ldFVx x

/-- Sections 5 and 8 of 10_state.md and section 1 of 20_memory.md: which instructions change the stack, the
memory, the display, the timer and the latch. -/
def Obligations.BusAndStackChangeOnlyByTheirWriters : Prop :=
  ∀ (i : Instr) (s t : State), exec i s = .next t →
    (¬ Part.stack.kept s t → (∃ nnn, i = .call nnn) ∨ i = .ret) ∧
    (¬ Part.memory.kept s t → (∃ x, i = .ldBVx x) ∨ ∃ x, i = .ldMemIVx x) ∧
    (¬ Part.display.kept s t → i = .cls ∨ ∃ x y n, i = .drwVxVyN x y n) ∧
    (¬ Part.timer.kept s t → ∃ x, i = .ldDtVx x) ∧
    (¬ Part.latch.kept s t → ∃ x, i = .ldVxK x)

/-- Section 1 of 60_exceptions.md: which instructions can end in a fatal error of their own, with which code of
kind and operation. -/
def Obligations.FatalErrorsOfInstructions : Prop :=
  ∀ (i : Instr) (s t : State), s.halted = false → exec i s = .next t → t.halted = true →
    (i = .ret ∧ t.err.kind.code = 3 ∧ t.err.op.code = 0) ∨
    (t.err.kind.code = 1 ∧
      ((∃ nnn, i = .call nnn ∧ t.err.op.code = 4) ∨
       (∃ x, (i = .ldBVx x ∨ i = .ldMemIVx x) ∧ t.err.op.code = 3) ∨
       (∃ x, i = .ldVxMemI x ∧ t.err.op.code = 2) ∨
       (∃ x y n, i = .drwVxVyN x y n ∧ t.err.op.code = 2)))

/-! ### Invariants -/

/-- The model's invariant at reset: memory in its canonical form and a clear record, for every choice of the
OPEN reset values whose memory image is in the canonical form. -/
def Obligations.ResetHasTheInvariant : Prop :=
  State.reset.Inv ∧ ∀ (s : State) (p : ResetParams), p.mem.wf = true → (s.hostReset p).Inv

/-- Every step keeps the invariant: memory stays in its canonical form, within its 4096 bytes, and the error
record is clear while the block runs and one that 60_exceptions.md lists once it has halted. -/
def Obligations.StepKeepsTheInvariant : Prop :=
  ∀ s t : State, s.Inv → step s = .next t → t.Inv

/-- Every host action keeps the invariant too, a reset with any memory image in the canonical form. -/
def Obligations.HostActionsKeepTheInvariant : Prop :=
  ∀ (s t : State) (a : HostAction), s.Inv → (∀ p, a = .reset p → p.mem.wf = true) → hostAct a s = .next t → t.Inv

/-- The bound of R28 (marked derived there) at reset. -/
def Obligations.ResetHasPcBounded : Prop :=
  State.reset.PcBounded ∧ ∀ (s : State) (p : ResetParams), (s.hostReset p).PcBounded

/-- R28 (marked derived there): no step makes PC larger than 0x10FE, given that the valid stack entries are
return addresses of at most 0x1000, which every step keeps. -/
def Obligations.StepKeepsPcBounded : Prop :=
  ∀ s t : State, s.PcBounded → step s = .next t → t.PcBounded

/-- R30 (marked derived there): stack entries at or above SP are never observed: two states that differ there
alone step to two states that differ there alone. -/
def Obligations.StaleStackEntriesAreUnobservable : Prop :=
  ∀ s t s' t' : State, SameButStale s t → step s = .next s' → step t = .next t' → SameButStale s' t'

/-- R254 and R255 (60_exceptions.md sections 3 and 4): beside its readers and writers, no instruction's effect
depends on DT or on K: with another value there, the effect is the same and the value stays. -/
def Obligations.TimerAndLatchAreSeenOnlyByTheirInstructions : Prop :=
  ∀ (i : Instr) (s t : State) (d : Byte) (k : Option Key), exec i s = .next t →
    ((∀ x, i ≠ .ldVxDt x) → (∀ x, i ≠ .ldDtVx x) →
      exec i { s with dt := d } = .next { t with dt := d }) ∧
    ((∀ x, i ≠ .skpVx x) → (∀ x, i ≠ .sknpVx x) → (∀ x, i ≠ .ldVxK x) →
      exec i { s with key := k } = .next { t with key := k })
end

