-- ==== Sys2Proof/Laws/Memory.lean ====
section
/-! SUPPORT. What memory operations do: a read after a write, the canonical form, equal memories are equal data,
and stores of several bytes (20_memory.md R61 to R69). -/

namespace Sys2Proof.Machine

/-! ### Cells -/

theorem cellsFrom_cons {low : Nat} {c : Host.Cell} {cs : List Host.Cell} :
    cellsFrom low (c :: cs) = true ↔
      low ≤ c.1 ∧ c.1 < memSize ∧ c.2 ≠ Memory.unlisted ∧ cellsFrom (c.1 + 1) cs = true := by
  simp [cellsFrom, and_assoc]

theorem cellsFrom_weaken {low low' : Nat} {cs : List Host.Cell} (h : cellsFrom low cs = true)
    (hle : low' ≤ low) : cellsFrom low' cs = true := by
  cases cs with
  | nil => rfl
  | cons c cs =>
    rw [cellsFrom_cons] at h ⊢
    exact ⟨hle.trans h.1, h.2⟩

/-- Below where the cells start, every address is unlisted. -/
theorem readCells_below {low : Nat} {cs : List Host.Cell} (h : cellsFrom low cs = true) {a : Nat}
    (ha : a < low) : readCells cs a = Memory.unlisted := by
  induction cs generalizing low with
  | nil => rfl
  | cons c cs ih =>
    rw [cellsFrom_cons] at h
    have hne : c.1 ≠ a := by omega
    simp only [readCells, hne, if_false]
    exact ih h.2.2.2 (by omega)

/-- From 4096 on, every address is unlisted. -/
theorem readCells_beyond {low : Nat} {cs : List Host.Cell} (h : cellsFrom low cs = true) {a : Nat}
    (ha : memSize ≤ a) : readCells cs a = Memory.unlisted := by
  induction cs generalizing low with
  | nil => rfl
  | cons c cs ih =>
    rw [cellsFrom_cons] at h
    have hne : c.1 ≠ a := by omega
    simp only [readCells, hne, if_false]
    exact ih h.2.2.2

/-- A read of another address is not changed by a write. -/
theorem readCells_writeCells_other (cs : List Host.Cell) {a q : Nat} (b : Byte) (h : q ≠ a) :
    readCells (writeCells cs a b) q = readCells cs q := by
  induction cs with
  | nil =>
    unfold writeCells
    split <;> simp [readCells, h.symm]
  | cons c cs ih =>
    unfold writeCells
    split
    · split <;> simp [readCells, h.symm]
    · split
      · next heq => split <;> simp [readCells, ← heq, h.symm]
      · simp [readCells, ih]

/-- A read of the address written gives the byte written. -/
theorem readCells_writeCells_same {low : Nat} {cs : List Host.Cell} (h : cellsFrom low cs = true) (a : Nat)
    (b : Byte) : readCells (writeCells cs a b) a = b := by
  induction cs generalizing low with
  | nil =>
    unfold writeCells
    split
    · next hb => exact hb.symm
    · simp [readCells]
  | cons c cs ih =>
    have h' := cellsFrom_cons.1 h
    unfold writeCells
    split
    · next hlt =>
      split
      · next hb =>
        have hne : c.1 ≠ a := by omega
        simp only [readCells, hne, if_false]
        rw [readCells_below h'.2.2.2 (by omega), hb]
      · simp [readCells]
    · split
      · next heq =>
        split
        · next hb => rw [readCells_below h'.2.2.2 (by omega), hb]
        · simp [readCells]
      · next hne =>
        have hne' : c.1 ≠ a := fun e => hne e.symm
        simp only [readCells, hne', if_false]
        exact ih h'.2.2.2

/-- A write keeps the canonical form. -/
theorem cellsFrom_writeCells {low : Nat} {cs : List Host.Cell} (h : cellsFrom low cs = true) {a : Nat}
    (ha : low ≤ a) (hs : a < memSize) (b : Byte) : cellsFrom low (writeCells cs a b) = true := by
  induction cs generalizing low with
  | nil =>
    unfold writeCells
    split
    · rfl
    · next hb => simp [cellsFrom, ha, hs, hb]
  | cons c cs ih =>
    have h' := cellsFrom_cons.1 h
    unfold writeCells
    split
    · next hlt =>
      split
      · exact h
      · next hb =>
        exact cellsFrom_cons.2 ⟨ha, hs, hb, cellsFrom_cons.2 ⟨hlt, h'.2⟩⟩
    · split
      · next heq =>
        subst heq
        split
        · exact cellsFrom_weaken h'.2.2.2 (by omega)
        · next hb => exact cellsFrom_cons.2 ⟨ha, hs, hb, h'.2.2.2⟩
      · exact cellsFrom_cons.2 ⟨h'.1, h'.2.1, h'.2.2.1, ih h'.2.2.2 (by omega)⟩

/-- Cells in the canonical form that read the same are the same. -/
theorem cells_ext {low : Nat} {cs ds : List Host.Cell} (hc : cellsFrom low cs = true)
    (hd : cellsFrom low ds = true) (h : ∀ a, readCells cs a = readCells ds a) : cs = ds := by
  induction cs generalizing low ds with
  | nil =>
    cases ds with
    | nil => rfl
    | cons d ds =>
      have hd' := cellsFrom_cons.1 hd
      exact absurd (by simpa [readCells] using (h d.1).symm) hd'.2.2.1
  | cons c cs ih =>
    have hc' := cellsFrom_cons.1 hc
    cases ds with
    | nil => exact absurd (by simpa [readCells] using h c.1) hc'.2.2.1
    | cons d ds =>
      have hd' := cellsFrom_cons.1 hd
      have hfst : c.1 = d.1 := by
        rcases Nat.lt_trichotomy c.1 d.1 with hlt | heq | hgt
        · have e := h c.1
          rw [readCells_below (cs := d :: ds) (low := d.1) (cellsFrom_cons.2 ⟨le_rfl, hd'.2⟩) hlt] at e
          exact absurd (by simpa [readCells] using e) hc'.2.2.1
        · exact heq
        · have e := h d.1
          rw [readCells_below (cs := c :: cs) (low := c.1) (cellsFrom_cons.2 ⟨le_rfl, hc'.2⟩) hgt] at e
          exact absurd (by simpa [readCells] using e.symm) hd'.2.2.1
      have hsnd : c.2 = d.2 := by simpa [readCells, hfst] using h c.1
      have htail : cs = ds := by
        refine ih hc'.2.2.2 (by rw [hfst]; exact hd'.2.2.2) fun a => ?_
        rcases Nat.lt_or_ge a (c.1 + 1) with hlt | hge
        · rw [readCells_below hc'.2.2.2 hlt, readCells_below hd'.2.2.2 (by omega)]
        · have e := h a
          have h1 : c.1 ≠ a := by omega
          have h2 : d.1 ≠ a := by omega
          simpa [readCells, h1, h2] using e
      rw [htail, Prod.ext hfst hsnd]

/-! ### Memory -/

@[simp] theorem read_empty (a : Nat) : Memory.empty.read a = Memory.unlisted := rfl

@[simp] theorem wf_empty : Memory.empty.wf = true := rfl

theorem read_write_same {m : Memory} (h : m.wf = true) (a : Nat) (b : Byte) : (m.write a b).read a = b :=
  readCells_writeCells_same h a b

theorem read_write_other (m : Memory) {a q : Nat} (b : Byte) (h : q ≠ a) : (m.write a b).read q = m.read q :=
  readCells_writeCells_other m.cells b h

theorem write_wf {m : Memory} (h : m.wf = true) {a : Nat} (ha : a < memSize) (b : Byte) :
    (m.write a b).wf = true :=
  cellsFrom_writeCells h (Nat.zero_le a) ha b

/-- Two memories in the canonical form that read the same at every address are the same data. -/
theorem memory_ext {m k : Memory} (hm : m.wf = true) (hk : k.wf = true) (h : ∀ a, m.read a = k.read a) :
    m = k := by
  cases m; cases k
  exact congrArg Memory.mk (cells_ext hm hk h)

theorem access_eq_some {m : Memory} {a : Nat} {b : Byte} :
    m.access a = some b ↔ a < memSize ∧ m.read a = b := by
  unfold Memory.access
  split <;> simp_all

theorem access_eq_none {m : Memory} {a : Nat} : m.access a = none ↔ memSize ≤ a := by
  unfold Memory.access
  split <;> simp_all

/-! ### Stores of several bytes -/

/-- Storing where `lands` allows keeps the canonical form when every address stored to is in bounds. -/
theorem storeWhere_wf (lands : Nat → Bool) {m : Memory} (h : m.wf = true) {a : Nat} {bytes : List Byte}
    (ha : bytes.length = 0 ∨ a + bytes.length ≤ memSize) : (m.storeWhere lands a bytes).wf = true := by
  induction bytes generalizing m a with
  | nil => exact h
  | cons b bs ih =>
    simp only [List.length_cons] at ha
    refine ih ?_ (by omega)
    split
    · exact write_wf h (by omega) b
    · exact h

/-- Outside the addresses stored to, or where `lands` forbids it, every byte reads as before. -/
theorem read_storeWhere_other (lands : Nat → Bool) (m : Memory) (a : Nat) (bytes : List Byte) {q : Nat}
    (h : q < a ∨ a + bytes.length ≤ q ∨ lands q = false) : (m.storeWhere lands a bytes).read q = m.read q := by
  induction bytes generalizing m a with
  | nil => rfl
  | cons b bs ih =>
    simp only [List.length_cons] at h
    refine (ih _ (a + 1) (by
      rcases h with h | h | h
      · exact Or.inl (by omega)
      · exact Or.inr (Or.inl (by omega))
      · exact Or.inr (Or.inr h))).trans ?_
    split
    · next hl =>
      refine read_write_other m b ?_
      rintro rfl
      rw [hl] at h
      simp at h
    · rfl

/-- An address stored to reads as its byte of the list, where `lands` allows it. -/
theorem read_storeWhere_at (lands : Nat → Bool) {m : Memory} (h : m.wf = true) {a : Nat} {bytes : List Byte}
    (ha : a + bytes.length ≤ memSize) {k : Nat} (hk : k < bytes.length) (hl : lands (a + k) = true) :
    (m.storeWhere lands a bytes).read (a + k) = bytes[k] := by
  induction bytes generalizing m a k with
  | nil => simp at hk
  | cons b bs ih =>
    simp only [List.length_cons] at ha hk
    have hw : (if lands a then m.write a b else m).wf = true := by
      split
      · exact write_wf h (by omega) b
      · exact h
    cases k with
    | zero =>
      rw [Nat.add_zero] at hl ⊢
      refine (read_storeWhere_other lands _ (a + 1) bs (Or.inl (by omega))).trans ?_
      simp [hl, read_write_same h]
    | succ k =>
      have e : a + (k + 1) = a + 1 + k := by omega
      rw [e] at hl ⊢
      exact ih hw (a := a + 1) (by omega) (k := k) (by omega) hl

theorem store_wf {m : Memory} (h : m.wf = true) {a : Nat} {bytes : List Byte}
    (ha : bytes.length = 0 ∨ a + bytes.length ≤ memSize) : (m.store a bytes).wf = true :=
  storeWhere_wf _ h ha

theorem read_store_other (m : Memory) (a : Nat) (bytes : List Byte) {q : Nat}
    (h : q < a ∨ a + bytes.length ≤ q) : (m.store a bytes).read q = m.read q :=
  read_storeWhere_other _ m a bytes (h.imp_right Or.inl)

theorem read_store_at {m : Memory} (h : m.wf = true) {a : Nat} {bytes : List Byte}
    (ha : a + bytes.length ≤ memSize) {k : Nat} (hk : k < bytes.length) :
    (m.store a bytes).read (a + k) = bytes[k] :=
  read_storeWhere_at _ h ha hk rfl

/-! ### Bounds -/

/-- No address of a range is out of bounds exactly when the range ends by 4096. -/
theorem firstOutOfBounds_eq_none {a count : Nat} :
    firstOutOfBounds a count = none ↔ count = 0 ∨ a + count ≤ memSize := by
  induction count generalizing a with
  | zero => simp [firstOutOfBounds]
  | succ n ih =>
    unfold firstOutOfBounds
    split
    · next h => rw [ih]; omega
    · next h => simp; omega

/-- The first address out of bounds: where the range starts if that is beyond memory, else 4096. -/
theorem firstOutOfBounds_eq_some {a count bad : Nat} (h : firstOutOfBounds a count = some bad) :
    bad = max a memSize ∧ a ≤ bad ∧ bad < a + count := by
  induction count generalizing a with
  | zero => simp [firstOutOfBounds] at h
  | succ n ih =>
    unfold firstOutOfBounds at h
    split at h
    · have := ih h; omega
    · obtain rfl : a = bad := by simpa using h
      omega

end Sys2Proof.Machine
end

