-- ==== Sys2Proof/Laws/Display.lean ====
section
/-! SUPPORT. What the display operations do, pixel by pixel (43_display.md R200, R201, R203). -/

namespace Sys2Proof.Machine

@[simp] theorem pixel_blank (x y : Nat) : Display.blank.pixel x y = false := by
  unfold Display.pixel
  split <;> simp [Display.blank]

@[simp] theorem pixel_clear (d : Display) (x y : Nat) : d.clear.pixel x y = false := pixel_blank x y

/-- Displays with the same pixels are the same. -/
theorem display_ext {d e : Display} (h : ∀ x y, d.pixel x y = e.pixel x y) : d = e := by
  cases d; cases e
  refine congrArg Display.mk (Vector.ext fun y hy => BitVec.eq_of_getLsbD_eq fun x _ => ?_)
  simpa [Display.pixel, displayHeight, hy] using h x y

/-! ### One row -/

theorem blitPixel_bit (row : Byte) (x : Nat) (acc : BitVec 64 × Bool) (i px : Nat) :
    (blitPixel row x acc i).1.getLsbD px =
      (acc.1.getLsbD px ^^ (decide (px = (x + i) % 64) && spriteBit row i)) := by
  have hlt : (x + i) % 64 < 64 := Nat.mod_lt _ (by decide)
  unfold blitPixel
  cases hb : spriteBit row i
  · simp
  · by_cases e : px = (x + i) % 64
    · simp [displayWidth, e, hlt]
    · simp [displayWidth, BitVec.getLsbD_twoPow, e, Ne.symm e]

/-- `any` over a list depends only on the list's members. -/
theorem any_congr_mem {l : List Nat} {p q : Nat → Bool} (h : ∀ i ∈ l, p i = q i) : l.any p = l.any q := by
  induction l with
  | nil => rfl
  | cons i l ih =>
    rw [List.any_cons, List.any_cons, h i (by simp), ih fun j hj => h j (by simp [hj])]

/-- The blit's loop over bits whose columns are distinct: each column is XORed once, and the collision is that
some column held a 1 where the sprite has a 1. -/
theorem foldl_blitPixel (row : Byte) (x : Nat) (l : List Nat) (acc : BitVec 64 × Bool)
    (hd : l.Pairwise fun i j => (x + i) % 64 ≠ (x + j) % 64) :
    (∀ px, (l.foldl (blitPixel row x) acc).1.getLsbD px =
      (acc.1.getLsbD px ^^ l.any fun i => decide (px = (x + i) % 64) && spriteBit row i)) ∧
    (l.foldl (blitPixel row x) acc).2 =
      (acc.2 || l.any fun i => acc.1.getLsbD ((x + i) % 64) && spriteBit row i) := by
  induction l generalizing acc with
  | nil => simp
  | cons i l ih =>
    rw [List.pairwise_cons] at hd
    obtain ⟨h1, h2⟩ := ih (blitPixel row x acc i) hd.2
    refine ⟨fun px => ?_, ?_⟩
    · rw [List.foldl_cons, h1 px, blitPixel_bit, List.any_cons, Bool.xor_assoc]
      congr 1
      by_cases e : px = (x + i) % 64
      · have hnone : (l.any fun j => decide (px = (x + j) % 64) && spriteBit row j) = false := by
          rw [List.any_eq_false]
          intro j hj
          have := hd.1 j hj
          simp [e, this]
        simp [hnone]
      · simp [e]
    · rw [List.foldl_cons, h2, List.any_cons]
      have hsame : (l.any fun j => (blitPixel row x acc i).1.getLsbD ((x + j) % 64) && spriteBit row j) =
          l.any fun j => acc.1.getLsbD ((x + j) % 64) && spriteBit row j := by
        refine any_congr_mem fun j hj => ?_
        have := Ne.symm (hd.1 j hj)
        simp [blitPixel_bit, this]
      rw [hsame]
      simp [blitPixel, displayWidth, Bool.or_assoc]

theorem columns_distinct (x : Nat) :
    [0, 1, 2, 3, 4, 5, 6, 7].Pairwise fun i j => (x + i) % 64 ≠ (x + j) % 64 := by
  simp only [List.pairwise_cons, List.mem_cons, List.not_mem_nil, or_false, forall_eq_or_imp, forall_eq,
    List.Pairwise.nil, and_true, IsEmpty.forall_iff, implies_true]
  omega

/-- One row's blit, pixel by pixel. -/
theorem blitRow_bit (row : Byte) (x : Nat) (pixels : BitVec 64) (px : Nat) :
    (blitRow row x pixels).1.getLsbD px =
      (pixels.getLsbD px ^^ (List.range 8).any fun i => decide (px = (x + i) % 64) && spriteBit row i) :=
  (foldl_blitPixel row x _ (pixels, false) (columns_distinct x)).1 px

/-- One row's collision. -/
theorem blitRow_collision (row : Byte) (x : Nat) (pixels : BitVec 64) :
    (blitRow row x pixels).2 = (List.range 8).any fun i => pixels.getLsbD ((x + i) % 64) && spriteBit row i :=
  ((foldl_blitPixel row x _ (pixels, false) (columns_distinct x)).2).trans (Bool.false_or _)

/-! ### A blit -/

/-- A blit XORs the sprite row into display row `y`, if there is one, and leaves the other rows (R201). -/
theorem pixel_blit (d : Display) (row : Byte) (x y px py : Nat) :
    (d.blit row x y).1.pixel px py =
      (d.pixel px py ^^ (decide (py = y ∧ y < 32) &&
        (List.range 8).any fun i => decide (px = (x + i) % 64) && spriteBit row i)) := by
  unfold Display.blit
  split
  · next h =>
    change y < 32 at h
    unfold Display.pixel
    by_cases hp : py < 32
    · rw [dif_pos hp, dif_pos hp]
      by_cases e : py = y
      · subst e
        simp only [Vector.getElem_set_self, blitRow_bit]
        simp [h]
      · simp [e, Ne.symm e]
    · have e : ¬ (py = y ∧ y < 32) := fun h => hp (h.1 ▸ h.2)
      simp [displayHeight, hp, e]
  · next h =>
    have e : ¬ (py = y ∧ y < 32) := fun he => h he.2
    simp [e]

/-- The collision of a blit: some pixel of the row held a 1 where the sprite row has a 1 (R201). -/
theorem blit_collision (d : Display) (row : Byte) (x y : Nat) :
    (d.blit row x y).2 =
      (List.range 8).any fun i => d.pixel ((x + i) % 64) y && spriteBit row i := by
  unfold Display.blit Display.pixel
  split
  · simp only [blitRow_collision]
  · simp

/-! ### The rows of a sprite -/

/-- The draw loop meets an out-of-bounds address exactly when the list of its addresses has one. -/
theorem drawRows_failedAt (m : Memory) (x rows a y : Nat) (d : Display) (c : Bool) :
    (drawRows m x rows a y d c).failedAt = firstOutOfBounds a rows := by
  induction rows generalizing a y d c with
  | zero => rfl
  | succ n ih =>
    unfold drawRows firstOutOfBounds
    by_cases h : a < memSize
    · simp [Memory.access, h, ih]
    · simp [Memory.access, h]

theorem range_succ_any (n : Nat) (p : Nat → Bool) :
    ((List.range (n + 1)).any p) = (p 0 || (List.range n).any fun r => p (r + 1)) := by
  rw [List.range_succ_eq_map]
  simp [List.any_map, Function.comp_def]

/-- A sprite of one row more covers what its first row covers and what the rest covers. -/
theorem spriteCovers_succ (m : Memory) (a x y n px py : Nat) :
    spriteCovers m a x y (n + 1) px py =
      (((List.range 8).any fun i => py == y && px == (x + i) % displayWidth && spriteBit (m.read a) i) ||
        spriteCovers m (a + 1) x (y + 1) n px py) := by
  unfold spriteCovers
  rw [range_succ_any n]
  congr 1
  refine any_congr_mem fun r _ => ?_
  rw [show y + (r + 1) = y + 1 + r by omega, show a + (r + 1) = a + 1 + r by omega]

/-- A sprite covers nothing above its first row. -/
theorem spriteCovers_above {m : Memory} {a x y n px py : Nat} (h : py < y) :
    spriteCovers m a x y n px py = false := by
  unfold spriteCovers
  simp only [List.any_eq_false]
  intro r _
  have : (py == y + r) = false := by simp; omega
  simp [this]

/-- The display after the rows were drawn, with every address in bounds (R203). -/
theorem drawRows_pixel (m : Memory) (x rows a y : Nat) (d : Display) (c : Bool) (px py : Nat)
    (h : a + rows ≤ memSize) (hpy : py < 32) :
    (drawRows m x rows a y d c).display.pixel px py =
      (d.pixel px py ^^ spriteCovers m a x y rows px py) := by
  induction rows generalizing a y d c with
  | zero => simp [drawRows, spriteCovers]
  | succ n ih =>
    have hacc : m.access a = some (m.read a) := access_eq_some.2 ⟨by omega, rfl⟩
    unfold drawRows
    rw [hacc]
    simp only
    rw [ih (a + 1) (y + 1) _ _ (by omega), pixel_blit, Bool.xor_assoc, spriteCovers_succ]
    congr 1
    by_cases e : py = y
    · subst e
      rw [spriteCovers_above (Nat.lt_succ_self py), Bool.or_false, Bool.xor_false]
      simp only [hpy, and_self, decide_true, Bool.true_and, displayWidth, beq_self_eq_true]
      rfl
    · have hne : (py == y) = false := by simp [e]
      simp [e, hne]

/-- The collision after the rows were drawn: some pixel of the display held a 1 where the sprite has a 1
(R203). -/
theorem drawRows_collision (m : Memory) (x rows a y : Nat) (d : Display) (c : Bool)
    (h : a + rows ≤ memSize) :
    (drawRows m x rows a y d c).collision =
      (c || (List.range rows).any fun r => (List.range 8).any fun i =>
        d.pixel ((x + i) % 64) (y + r) && spriteBit (m.read (a + r)) i) := by
  induction rows generalizing a y d c with
  | zero => simp [drawRows]
  | succ n ih =>
    have hacc : m.access a = some (m.read a) := access_eq_some.2 ⟨by omega, rfl⟩
    unfold drawRows
    rw [hacc]
    simp only
    rw [ih (a + 1) (y + 1) _ _ (by omega), range_succ_any, blit_collision, Bool.or_assoc]
    congr 1
    simp only [Nat.add_zero]
    congr 1
    refine any_congr_mem fun r _ => ?_
    have e1 : y + (r + 1) = y + 1 + r := by omega
    have e2 : a + (r + 1) = a + 1 + r := by omega
    have hne : ¬ (y + 1 + r = y ∧ y < 32) := by omega
    simp only [e1, e2, pixel_blit, hne, decide_false, Bool.false_and, Bool.xor_false]

/-- Drawing rows that fail at an address is drawing the rows before it. -/
theorem drawRows_display_of_failed {m : Memory} {x rows a y : Nat} {d : Display} {c : Bool} {bad : Nat}
    (h : (drawRows m x rows a y d c).failedAt = some bad) :
    (drawRows m x rows a y d c).display = (drawRows m x (bad - a) a y d c).display := by
  induction rows generalizing a y d c with
  | zero => simp [drawRows] at h
  | succ n ih =>
    have hle := firstOutOfBounds_eq_some ((drawRows_failedAt m x (n + 1) a y d c).symm.trans h)
    unfold drawRows at h ⊢
    cases hacc : m.access a with
    | none =>
      have ha := access_eq_none.1 hacc
      have : bad - a = 0 := by omega
      simp [this]
    | some row =>
      have ha := (access_eq_some.1 hacc).1
      obtain ⟨k, hk⟩ : ∃ k, bad - a = k + 1 := ⟨bad - a - 1, by omega⟩
      rw [hacc] at h
      have := ih h
      rw [hk]
      simp only [hacc]
      rw [this, show bad - (a + 1) = k by omega]

/-- A blend takes each pixel from the new display where the mask has a 1, else from the old one (R246). -/
theorem pixel_blend (mask : Nat → BitVec 64) (old new : Display) (x y : Nat) :
    (Display.blend mask old new).pixel x y =
      if (mask y).getLsbD x then new.pixel x y else old.pixel x y := by
  unfold Display.pixel Display.blend
  split
  · next hy =>
    simp only [Vector.getElem_ofFn, BitVec.getLsbD_or, BitVec.getLsbD_and, BitVec.getLsbD_not]
    by_cases hx : x < 64
    · cases (mask y).getLsbD x <;> simp [hx]
    · have h64 : 64 ≤ x := by omega
      simp [hx, BitVec.getLsbD_of_ge _ _ h64]
  · simp

end Sys2Proof.Machine
end

