-- ==== Sys2Proof/Laws/State.lean ====
section
/-! SUPPORT. One lemma per field per update of the state, each true by `rfl`, so that no proof unfolds a record
update; then what reading a register gives after each update. -/

namespace Sys2Proof.Machine

/-! ### writeV -/

@[simp] theorem writeV_v (s : State) (r : Reg) (b : Byte) : (s.writeV r b).v = s.v.set r.val b := rfl
@[simp] theorem writeV_i (s : State) (r : Reg) (b : Byte) : (s.writeV r b).i = s.i := rfl
@[simp] theorem writeV_pc (s : State) (r : Reg) (b : Byte) : (s.writeV r b).pc = s.pc := rfl
@[simp] theorem writeV_stack (s : State) (r : Reg) (b : Byte) : (s.writeV r b).stack = s.stack := rfl
@[simp] theorem writeV_sp (s : State) (r : Reg) (b : Byte) : (s.writeV r b).sp = s.sp := rfl
@[simp] theorem writeV_halted (s : State) (r : Reg) (b : Byte) : (s.writeV r b).halted = s.halted := rfl
@[simp] theorem writeV_err (s : State) (r : Reg) (b : Byte) : (s.writeV r b).err = s.err := rfl
@[simp] theorem writeV_mem (s : State) (r : Reg) (b : Byte) : (s.writeV r b).mem = s.mem := rfl
@[simp] theorem writeV_display (s : State) (r : Reg) (b : Byte) : (s.writeV r b).display = s.display := rfl
@[simp] theorem writeV_dt (s : State) (r : Reg) (b : Byte) : (s.writeV r b).dt = s.dt := rfl
@[simp] theorem writeV_key (s : State) (r : Reg) (b : Byte) : (s.writeV r b).key = s.key := rfl
@[simp] theorem writeV_freeIndex (s : State) (r : Reg) (b : Byte) : (s.writeV r b).freeIndex = s.freeIndex := rfl

/-! ### setV -/

@[simp] theorem setV_v (s : State) (w : Vector Byte 16) : (s.setV w).v = w := rfl
@[simp] theorem setV_i (s : State) (w : Vector Byte 16) : (s.setV w).i = s.i := rfl
@[simp] theorem setV_pc (s : State) (w : Vector Byte 16) : (s.setV w).pc = s.pc := rfl
@[simp] theorem setV_stack (s : State) (w : Vector Byte 16) : (s.setV w).stack = s.stack := rfl
@[simp] theorem setV_sp (s : State) (w : Vector Byte 16) : (s.setV w).sp = s.sp := rfl
@[simp] theorem setV_halted (s : State) (w : Vector Byte 16) : (s.setV w).halted = s.halted := rfl
@[simp] theorem setV_err (s : State) (w : Vector Byte 16) : (s.setV w).err = s.err := rfl
@[simp] theorem setV_mem (s : State) (w : Vector Byte 16) : (s.setV w).mem = s.mem := rfl
@[simp] theorem setV_display (s : State) (w : Vector Byte 16) : (s.setV w).display = s.display := rfl
@[simp] theorem setV_dt (s : State) (w : Vector Byte 16) : (s.setV w).dt = s.dt := rfl
@[simp] theorem setV_key (s : State) (w : Vector Byte 16) : (s.setV w).key = s.key := rfl
@[simp] theorem setV_freeIndex (s : State) (w : Vector Byte 16) : (s.setV w).freeIndex = s.freeIndex := rfl

/-! ### setI -/

@[simp] theorem setI_v (s : State) (w : Word) : (s.setI w).v = s.v := rfl
@[simp] theorem setI_i (s : State) (w : Word) : (s.setI w).i = w := rfl
@[simp] theorem setI_pc (s : State) (w : Word) : (s.setI w).pc = s.pc := rfl
@[simp] theorem setI_stack (s : State) (w : Word) : (s.setI w).stack = s.stack := rfl
@[simp] theorem setI_sp (s : State) (w : Word) : (s.setI w).sp = s.sp := rfl
@[simp] theorem setI_halted (s : State) (w : Word) : (s.setI w).halted = s.halted := rfl
@[simp] theorem setI_err (s : State) (w : Word) : (s.setI w).err = s.err := rfl
@[simp] theorem setI_mem (s : State) (w : Word) : (s.setI w).mem = s.mem := rfl
@[simp] theorem setI_display (s : State) (w : Word) : (s.setI w).display = s.display := rfl
@[simp] theorem setI_dt (s : State) (w : Word) : (s.setI w).dt = s.dt := rfl
@[simp] theorem setI_key (s : State) (w : Word) : (s.setI w).key = s.key := rfl
@[simp] theorem setI_freeIndex (s : State) (w : Word) : (s.setI w).freeIndex = s.freeIndex := rfl

/-! ### setPc -/

@[simp] theorem setPc_v (s : State) (w : Word) : (s.setPc w).v = s.v := rfl
@[simp] theorem setPc_i (s : State) (w : Word) : (s.setPc w).i = s.i := rfl
@[simp] theorem setPc_pc (s : State) (w : Word) : (s.setPc w).pc = w := rfl
@[simp] theorem setPc_stack (s : State) (w : Word) : (s.setPc w).stack = s.stack := rfl
@[simp] theorem setPc_sp (s : State) (w : Word) : (s.setPc w).sp = s.sp := rfl
@[simp] theorem setPc_halted (s : State) (w : Word) : (s.setPc w).halted = s.halted := rfl
@[simp] theorem setPc_err (s : State) (w : Word) : (s.setPc w).err = s.err := rfl
@[simp] theorem setPc_mem (s : State) (w : Word) : (s.setPc w).mem = s.mem := rfl
@[simp] theorem setPc_display (s : State) (w : Word) : (s.setPc w).display = s.display := rfl
@[simp] theorem setPc_dt (s : State) (w : Word) : (s.setPc w).dt = s.dt := rfl
@[simp] theorem setPc_key (s : State) (w : Word) : (s.setPc w).key = s.key := rfl
@[simp] theorem setPc_freeIndex (s : State) (w : Word) : (s.setPc w).freeIndex = s.freeIndex := rfl

/-! ### advance -/

@[simp] theorem advance_v (s : State) : (s.advance).v = s.v := rfl
@[simp] theorem advance_i (s : State) : (s.advance).i = s.i := rfl
@[simp] theorem advance_pc (s : State) : (s.advance).pc = s.pc + 2 := rfl
@[simp] theorem advance_stack (s : State) : (s.advance).stack = s.stack := rfl
@[simp] theorem advance_sp (s : State) : (s.advance).sp = s.sp := rfl
@[simp] theorem advance_halted (s : State) : (s.advance).halted = s.halted := rfl
@[simp] theorem advance_err (s : State) : (s.advance).err = s.err := rfl
@[simp] theorem advance_mem (s : State) : (s.advance).mem = s.mem := rfl
@[simp] theorem advance_display (s : State) : (s.advance).display = s.display := rfl
@[simp] theorem advance_dt (s : State) : (s.advance).dt = s.dt := rfl
@[simp] theorem advance_key (s : State) : (s.advance).key = s.key := rfl
@[simp] theorem advance_freeIndex (s : State) : (s.advance).freeIndex = s.freeIndex := rfl

/-! ### skipIf -/

@[simp] theorem skipIf_v (s : State) (c : Bool) : (s.skipIf c).v = s.v := rfl
@[simp] theorem skipIf_i (s : State) (c : Bool) : (s.skipIf c).i = s.i := rfl
@[simp] theorem skipIf_pc (s : State) (c : Bool) : (s.skipIf c).pc = if c then s.pc + 4 else s.pc + 2 := rfl
@[simp] theorem skipIf_stack (s : State) (c : Bool) : (s.skipIf c).stack = s.stack := rfl
@[simp] theorem skipIf_sp (s : State) (c : Bool) : (s.skipIf c).sp = s.sp := rfl
@[simp] theorem skipIf_halted (s : State) (c : Bool) : (s.skipIf c).halted = s.halted := rfl
@[simp] theorem skipIf_err (s : State) (c : Bool) : (s.skipIf c).err = s.err := rfl
@[simp] theorem skipIf_mem (s : State) (c : Bool) : (s.skipIf c).mem = s.mem := rfl
@[simp] theorem skipIf_display (s : State) (c : Bool) : (s.skipIf c).display = s.display := rfl
@[simp] theorem skipIf_dt (s : State) (c : Bool) : (s.skipIf c).dt = s.dt := rfl
@[simp] theorem skipIf_key (s : State) (c : Bool) : (s.skipIf c).key = s.key := rfl
@[simp] theorem skipIf_freeIndex (s : State) (c : Bool) : (s.skipIf c).freeIndex = s.freeIndex := rfl

/-! ### setFlag -/

@[simp] theorem setFlag_v (s : State) (f : Bool) : (s.setFlag f).v = s.v.set 15 (flagByte f) := rfl
@[simp] theorem setFlag_i (s : State) (f : Bool) : (s.setFlag f).i = s.i := rfl
@[simp] theorem setFlag_pc (s : State) (f : Bool) : (s.setFlag f).pc = s.pc := rfl
@[simp] theorem setFlag_stack (s : State) (f : Bool) : (s.setFlag f).stack = s.stack := rfl
@[simp] theorem setFlag_sp (s : State) (f : Bool) : (s.setFlag f).sp = s.sp := rfl
@[simp] theorem setFlag_halted (s : State) (f : Bool) : (s.setFlag f).halted = s.halted := rfl
@[simp] theorem setFlag_err (s : State) (f : Bool) : (s.setFlag f).err = s.err := rfl
@[simp] theorem setFlag_mem (s : State) (f : Bool) : (s.setFlag f).mem = s.mem := rfl
@[simp] theorem setFlag_display (s : State) (f : Bool) : (s.setFlag f).display = s.display := rfl
@[simp] theorem setFlag_dt (s : State) (f : Bool) : (s.setFlag f).dt = s.dt := rfl
@[simp] theorem setFlag_key (s : State) (f : Bool) : (s.setFlag f).key = s.key := rfl
@[simp] theorem setFlag_freeIndex (s : State) (f : Bool) : (s.setFlag f).freeIndex = s.freeIndex := rfl

/-! ### setMem -/

@[simp] theorem setMem_v (s : State) (m : Memory) : (s.setMem m).v = s.v := rfl
@[simp] theorem setMem_i (s : State) (m : Memory) : (s.setMem m).i = s.i := rfl
@[simp] theorem setMem_pc (s : State) (m : Memory) : (s.setMem m).pc = s.pc := rfl
@[simp] theorem setMem_stack (s : State) (m : Memory) : (s.setMem m).stack = s.stack := rfl
@[simp] theorem setMem_sp (s : State) (m : Memory) : (s.setMem m).sp = s.sp := rfl
@[simp] theorem setMem_halted (s : State) (m : Memory) : (s.setMem m).halted = s.halted := rfl
@[simp] theorem setMem_err (s : State) (m : Memory) : (s.setMem m).err = s.err := rfl
@[simp] theorem setMem_mem (s : State) (m : Memory) : (s.setMem m).mem = m := rfl
@[simp] theorem setMem_display (s : State) (m : Memory) : (s.setMem m).display = s.display := rfl
@[simp] theorem setMem_dt (s : State) (m : Memory) : (s.setMem m).dt = s.dt := rfl
@[simp] theorem setMem_key (s : State) (m : Memory) : (s.setMem m).key = s.key := rfl
@[simp] theorem setMem_freeIndex (s : State) (m : Memory) : (s.setMem m).freeIndex = s.freeIndex := rfl

/-! ### setDisplay -/

@[simp] theorem setDisplay_v (s : State) (d : Display) : (s.setDisplay d).v = s.v := rfl
@[simp] theorem setDisplay_i (s : State) (d : Display) : (s.setDisplay d).i = s.i := rfl
@[simp] theorem setDisplay_pc (s : State) (d : Display) : (s.setDisplay d).pc = s.pc := rfl
@[simp] theorem setDisplay_stack (s : State) (d : Display) : (s.setDisplay d).stack = s.stack := rfl
@[simp] theorem setDisplay_sp (s : State) (d : Display) : (s.setDisplay d).sp = s.sp := rfl
@[simp] theorem setDisplay_halted (s : State) (d : Display) : (s.setDisplay d).halted = s.halted := rfl
@[simp] theorem setDisplay_err (s : State) (d : Display) : (s.setDisplay d).err = s.err := rfl
@[simp] theorem setDisplay_mem (s : State) (d : Display) : (s.setDisplay d).mem = s.mem := rfl
@[simp] theorem setDisplay_display (s : State) (d : Display) : (s.setDisplay d).display = d := rfl
@[simp] theorem setDisplay_dt (s : State) (d : Display) : (s.setDisplay d).dt = s.dt := rfl
@[simp] theorem setDisplay_key (s : State) (d : Display) : (s.setDisplay d).key = s.key := rfl
@[simp] theorem setDisplay_freeIndex (s : State) (d : Display) : (s.setDisplay d).freeIndex = s.freeIndex := rfl

/-! ### dtWrite -/

@[simp] theorem dtWrite_v (s : State) (b : Byte) : (s.dtWrite b).v = s.v := rfl
@[simp] theorem dtWrite_i (s : State) (b : Byte) : (s.dtWrite b).i = s.i := rfl
@[simp] theorem dtWrite_pc (s : State) (b : Byte) : (s.dtWrite b).pc = s.pc := rfl
@[simp] theorem dtWrite_stack (s : State) (b : Byte) : (s.dtWrite b).stack = s.stack := rfl
@[simp] theorem dtWrite_sp (s : State) (b : Byte) : (s.dtWrite b).sp = s.sp := rfl
@[simp] theorem dtWrite_halted (s : State) (b : Byte) : (s.dtWrite b).halted = s.halted := rfl
@[simp] theorem dtWrite_err (s : State) (b : Byte) : (s.dtWrite b).err = s.err := rfl
@[simp] theorem dtWrite_mem (s : State) (b : Byte) : (s.dtWrite b).mem = s.mem := rfl
@[simp] theorem dtWrite_display (s : State) (b : Byte) : (s.dtWrite b).display = s.display := rfl
@[simp] theorem dtWrite_dt (s : State) (b : Byte) : (s.dtWrite b).dt = b := rfl
@[simp] theorem dtWrite_key (s : State) (b : Byte) : (s.dtWrite b).key = s.key := rfl
@[simp] theorem dtWrite_freeIndex (s : State) (b : Byte) : (s.dtWrite b).freeIndex = s.freeIndex := rfl

/-! ### keyConsume -/

@[simp] theorem keyConsume_v (s : State) : (s.keyConsume).v = s.v := rfl
@[simp] theorem keyConsume_i (s : State) : (s.keyConsume).i = s.i := rfl
@[simp] theorem keyConsume_pc (s : State) : (s.keyConsume).pc = s.pc := rfl
@[simp] theorem keyConsume_stack (s : State) : (s.keyConsume).stack = s.stack := rfl
@[simp] theorem keyConsume_sp (s : State) : (s.keyConsume).sp = s.sp := rfl
@[simp] theorem keyConsume_halted (s : State) : (s.keyConsume).halted = s.halted := rfl
@[simp] theorem keyConsume_err (s : State) : (s.keyConsume).err = s.err := rfl
@[simp] theorem keyConsume_mem (s : State) : (s.keyConsume).mem = s.mem := rfl
@[simp] theorem keyConsume_display (s : State) : (s.keyConsume).display = s.display := rfl
@[simp] theorem keyConsume_dt (s : State) : (s.keyConsume).dt = s.dt := rfl
@[simp] theorem keyConsume_key (s : State) : (s.keyConsume).key = none := rfl
@[simp] theorem keyConsume_freeIndex (s : State) : (s.keyConsume).freeIndex = s.freeIndex := rfl

/-! ### tookFree -/

@[simp] theorem tookFree_v (s : State) : (s.tookFree).v = s.v := rfl
@[simp] theorem tookFree_i (s : State) : (s.tookFree).i = s.i := rfl
@[simp] theorem tookFree_pc (s : State) : (s.tookFree).pc = s.pc := rfl
@[simp] theorem tookFree_stack (s : State) : (s.tookFree).stack = s.stack := rfl
@[simp] theorem tookFree_sp (s : State) : (s.tookFree).sp = s.sp := rfl
@[simp] theorem tookFree_halted (s : State) : (s.tookFree).halted = s.halted := rfl
@[simp] theorem tookFree_err (s : State) : (s.tookFree).err = s.err := rfl
@[simp] theorem tookFree_mem (s : State) : (s.tookFree).mem = s.mem := rfl
@[simp] theorem tookFree_display (s : State) : (s.tookFree).display = s.display := rfl
@[simp] theorem tookFree_dt (s : State) : (s.tookFree).dt = s.dt := rfl
@[simp] theorem tookFree_key (s : State) : (s.tookFree).key = s.key := rfl
@[simp] theorem tookFree_freeIndex (s : State) : (s.tookFree).freeIndex = s.freeIndex + 1 := rfl

/-! ### setKey -/

@[simp] theorem setKey_v (s : State) (k : Option Key) : (s.setKey k).v = s.v := rfl
@[simp] theorem setKey_i (s : State) (k : Option Key) : (s.setKey k).i = s.i := rfl
@[simp] theorem setKey_pc (s : State) (k : Option Key) : (s.setKey k).pc = s.pc := rfl
@[simp] theorem setKey_stack (s : State) (k : Option Key) : (s.setKey k).stack = s.stack := rfl
@[simp] theorem setKey_sp (s : State) (k : Option Key) : (s.setKey k).sp = s.sp := rfl
@[simp] theorem setKey_halted (s : State) (k : Option Key) : (s.setKey k).halted = s.halted := rfl
@[simp] theorem setKey_err (s : State) (k : Option Key) : (s.setKey k).err = s.err := rfl
@[simp] theorem setKey_mem (s : State) (k : Option Key) : (s.setKey k).mem = s.mem := rfl
@[simp] theorem setKey_display (s : State) (k : Option Key) : (s.setKey k).display = s.display := rfl
@[simp] theorem setKey_dt (s : State) (k : Option Key) : (s.setKey k).dt = s.dt := rfl
@[simp] theorem setKey_key (s : State) (k : Option Key) : (s.setKey k).key = k := rfl
@[simp] theorem setKey_freeIndex (s : State) (k : Option Key) : (s.setKey k).freeIndex = s.freeIndex := rfl

/-! ### raiseFatal -/

@[simp] theorem raiseFatal_v (s : State) (c : FatalCause) (w : Word) : (s.raiseFatal c w).v = s.v := rfl
@[simp] theorem raiseFatal_i (s : State) (c : FatalCause) (w : Word) : (s.raiseFatal c w).i = s.i := rfl
@[simp] theorem raiseFatal_pc (s : State) (c : FatalCause) (w : Word) : (s.raiseFatal c w).pc = s.pc := rfl
@[simp] theorem raiseFatal_stack (s : State) (c : FatalCause) (w : Word) : (s.raiseFatal c w).stack = s.stack := rfl
@[simp] theorem raiseFatal_sp (s : State) (c : FatalCause) (w : Word) : (s.raiseFatal c w).sp = s.sp := rfl
@[simp] theorem raiseFatal_halted (s : State) (c : FatalCause) (w : Word) : (s.raiseFatal c w).halted = true := rfl
@[simp] theorem raiseFatal_err (s : State) (c : FatalCause) (w : Word) : (s.raiseFatal c w).err = ⟨c.kind, c.op, s.pc, w, c.addr⟩ := rfl
@[simp] theorem raiseFatal_mem (s : State) (c : FatalCause) (w : Word) : (s.raiseFatal c w).mem = s.mem := rfl
@[simp] theorem raiseFatal_display (s : State) (c : FatalCause) (w : Word) : (s.raiseFatal c w).display = s.display := rfl
@[simp] theorem raiseFatal_dt (s : State) (c : FatalCause) (w : Word) : (s.raiseFatal c w).dt = s.dt := rfl
@[simp] theorem raiseFatal_key (s : State) (c : FatalCause) (w : Word) : (s.raiseFatal c w).key = s.key := rfl
@[simp] theorem raiseFatal_freeIndex (s : State) (c : FatalCause) (w : Word) : (s.raiseFatal c w).freeIndex = s.freeIndex := rfl

/-! ### Reading a register after an update -/

@[simp] theorem setI_readV (s : State) (w : Word) (q : Reg) : (s.setI w).readV q = s.readV q := rfl
@[simp] theorem setPc_readV (s : State) (w : Word) (q : Reg) : (s.setPc w).readV q = s.readV q := rfl
@[simp] theorem advance_readV (s : State) (q : Reg) : (s.advance).readV q = s.readV q := rfl
@[simp] theorem skipIf_readV (s : State) (c : Bool) (q : Reg) : (s.skipIf c).readV q = s.readV q := rfl
@[simp] theorem setMem_readV (s : State) (m : Memory) (q : Reg) : (s.setMem m).readV q = s.readV q := rfl
@[simp] theorem setDisplay_readV (s : State) (d : Display) (q : Reg) : (s.setDisplay d).readV q = s.readV q := rfl
@[simp] theorem dtWrite_readV (s : State) (b : Byte) (q : Reg) : (s.dtWrite b).readV q = s.readV q := rfl
@[simp] theorem keyConsume_readV (s : State) (q : Reg) : (s.keyConsume).readV q = s.readV q := rfl
@[simp] theorem tookFree_readV (s : State) (q : Reg) : (s.tookFree).readV q = s.readV q := rfl
@[simp] theorem setKey_readV (s : State) (k : Option Key) (q : Reg) : (s.setKey k).readV q = s.readV q := rfl
@[simp] theorem raiseFatal_readV (s : State) (c : FatalCause) (w : Word) (q : Reg) : (s.raiseFatal c w).readV q = s.readV q := rfl

/-- A register read after a write: the value written, or what stood there. -/
theorem writeV_readV (s : State) (r q : Reg) (b : Byte) :
    (s.writeV r b).readV q = if q = r then b else s.readV q := by
  by_cases h : q = r
  · subst h; simp [State.readV, State.writeV]
  · have : r.val ≠ q.val := fun e => h (Fin.ext e.symm)
    simp [State.readV, State.writeV, h, this]

@[simp] theorem writeV_readV_same (s : State) (r : Reg) (b : Byte) : (s.writeV r b).readV r = b := by
  simp [writeV_readV]

theorem writeV_readV_other (s : State) {r q : Reg} (b : Byte) (h : q ≠ r) :
    (s.writeV r b).readV q = s.readV q := by
  simp [writeV_readV, h]

/-- A register read after VF is written as a flag. -/
theorem setFlag_readV (s : State) (f : Bool) (q : Reg) :
    (s.setFlag f).readV q = if q = vF then flagByte f else s.readV q :=
  writeV_readV s vF q (flagByte f)

@[simp] theorem setFlag_readV_vF (s : State) (f : Bool) : (s.setFlag f).readV vF = flagByte f := by
  simp [setFlag_readV]

theorem setFlag_readV_other (s : State) (f : Bool) {q : Reg} (h : q ≠ vF) :
    (s.setFlag f).readV q = s.readV q := by
  simp [setFlag_readV, h]

/-- A register read after all of them were put in place. -/
@[simp] theorem setV_readV (s : State) (w : Vector Byte 16) (q : Reg) : (s.setV w).readV q = w[q.val] := rfl

/-- Registers compared one by one give equal register files. -/
theorem v_eq_of_readV {s t : State} (h : ∀ r : Reg, s.readV r = t.readV r) : s.v = t.v :=
  Vector.ext fun k hk => h ⟨k, hk⟩

end Sys2Proof.Machine
end

