-- ==== Sys2Proof/Laws/Ops.lean ====
section
/-! SUPPORT. One lemma for each shared operation, saying once everything it can do: the stack, fetch, a fatal
error, stores at I, loads from I, late operands, and the shape of a step. -/

namespace Sys2Proof.Machine

/-! ### Operand forms (R93) -/

@[simp] theorem zextAddr_toNat (nnn : Addr12) : (zextAddr nnn).toNat = nnn.toNat := by
  have := nnn.isLt
  simp only [zextAddr, BitVec.toNat_setWidth]
  omega

@[simp] theorem zextByte_toNat (b : Byte) : (zextByte b).toNat = b.toNat := by
  have := b.isLt
  simp only [zextByte, BitVec.toNat_setWidth]
  omega

@[simp] theorem zextKey_toNat (k : Key) : (zextKey k).toNat = k.toNat := by
  have := k.isLt
  simp only [zextKey, BitVec.toNat_setWidth]
  omega

theorem flagByte_toNat (f : Bool) : (flagByte f).toNat = if f then 1 else 0 := by
  cases f <;> rfl

/-! ### The call stack (R31, R32) -/

theorem push_full {s : State} {w : Word} : s.push w = none ↔ s.sp.val = 16 := by
  have := s.sp.isLt
  unfold State.push
  split
  · next h => simp only [stackDepth] at h; simp; omega
  · next h => simp only [stackDepth] at h; simp; omega

/-- A push that succeeds writes the entry at SP and counts it; nothing else changes. -/
theorem push_spec {s t : State} {w : Word} (h : s.push w = some t) :
    ∃ hs : s.sp.val < 16, t = { s with stack := s.stack.set s.sp.val w, sp := ⟨s.sp.val + 1, Nat.succ_lt_succ hs⟩ } := by
  unfold State.push at h
  split at h
  · next hs => exact ⟨hs, (Option.some.inj h).symm⟩
  · simp at h

theorem push_of_lt {s : State} (w : Word) (hs : s.sp.val < 16) :
    s.push w =
      some { s with stack := s.stack.set s.sp.val w, sp := ⟨s.sp.val + 1, Nat.succ_lt_succ hs⟩ } :=
  dif_pos hs

theorem pop_empty {s : State} : s.pop = none ↔ s.sp.val = 0 := by
  unfold State.pop
  split <;> simp_all

/-- A pop that succeeds gives the entry below SP and uncounts it; nothing else changes. -/
theorem pop_spec {s t : State} {w : Word} (h : s.pop = some (w, t)) :
    ∃ hs : 0 < s.sp.val, w = s.stack[s.sp.val - 1]'(by omega) ∧
      t = { s with sp := ⟨s.sp.val - 1, by omega⟩ } := by
  unfold State.pop at h
  split at h
  · simp at h
  · next hs =>
    have e := Prod.mk.inj (Option.some.inj h)
    exact ⟨by omega, e.1.symm, e.2.symm⟩

theorem pop_of_pos {s : State} (hs : 0 < s.sp.val) :
    s.pop = some (s.stack[s.sp.val - 1]'(by omega), { s with sp := ⟨s.sp.val - 1, by omega⟩ }) :=
  dif_neg (by omega)

/-! ### Fetch (R64) -/

/-- A fetch that succeeds reads the two bytes at PC, both in bounds. -/
theorem fetch_ok {s : State} {w : Word} :
    s.fetch = .ok w ↔ s.pc.toNat + 1 < memSize ∧
      w = wordOfBytes (s.mem.read s.pc.toNat) (s.mem.read (s.pc.toNat + 1)) := by
  unfold State.fetch Memory.access
  by_cases h1 : s.pc.toNat < memSize
  · by_cases h2 : s.pc.toNat + 1 < memSize
    · simp [h1, h2, eq_comm]
    · simp [h1, h2]
  · have h2 : ¬ s.pc.toNat + 1 < memSize := by omega
    simp [h1, h2]

/-- A fetch that fails reports the first of PC and PC + 1 that is out of bounds. -/
theorem fetch_error {s : State} {a : Nat} :
    s.fetch = .error a ↔ memSize ≤ s.pc.toNat + 1 ∧ a = max s.pc.toNat memSize := by
  unfold State.fetch Memory.access
  by_cases h1 : s.pc.toNat < memSize
  · by_cases h2 : s.pc.toNat + 1 < memSize
    · simp [h1, h2]
    · simp [h1, h2]; omega
  · have h2 : memSize ≤ s.pc.toNat := by omega
    simp [h1, eq_comm]
    try omega

/-! ### Stores at I (R183, R184, R246) -/

/-- A store at I with every address in bounds. -/
theorem storeAtI_inBounds {s : State} (word : Word) {bytes : List Byte}
    (h : bytes.length = 0 ∨ s.i.toNat + bytes.length ≤ memSize) :
    s.storeAtI word bytes = (s.setMem (s.mem.store s.i.toNat bytes)).advance := by
  unfold State.storeAtI
  rw [firstOutOfBounds_eq_none.2 h]

/-- A store at I that meets an address out of bounds. -/
theorem storeAtI_outOfBounds {s : State} (word : Word) {bytes : List Byte} (hl : bytes.length ≠ 0)
    (h : memSize < s.i.toNat + bytes.length) :
    s.storeAtI word bytes = s.failStore word bytes (max s.i.toNat memSize) := by
  unfold State.storeAtI
  cases hb : firstOutOfBounds s.i.toNat bytes.length with
  | none => have := firstOutOfBounds_eq_none.1 hb; omega
  | some bad => rw [(firstOutOfBounds_eq_some hb).1]

@[simp] theorem bcdBytes_length (b : Byte) : (bcdBytes b).length = 3 := rfl

@[simp] theorem dumpBytes_length (s : State) (x : Reg) : (s.dumpBytes x).length = x.val + 1 := by
  have := x.isLt
  simp [State.dumpBytes]

/-- The bytes of a dump are the registers in order. -/
theorem dumpBytes_getElem (s : State) (x : Reg) (k : Nat) (hk : k < (s.dumpBytes x).length) :
    (s.dumpBytes x)[k] = s.readV ⟨k, by simp at hk; omega⟩ := by
  simp [State.dumpBytes, State.readV]

/-! ### Loads from I (R185) -/

/-- A register after a load: its byte of memory, or what it held. -/
theorem loadedRegs_getElem (s : State) (count : Nat) (lands : Nat → Bool) (r : Reg) :
    (s.loadedRegs count lands)[r.val] =
      if r.val < count ∧ lands r.val = true then s.mem.read (s.i.toNat + r.val) else s.readV r := by
  simp [State.loadedRegs]

/-- A load from I with every address in bounds. -/
theorem loadAtI_inBounds {s : State} (word : Word) {x : Reg} (h : s.i.toNat + x.val < memSize) :
    s.loadAtI word x = (s.setV (s.loadedRegs (x.val + 1) fun _ => true)).advance := by
  unfold State.loadAtI
  rw [firstOutOfBounds_eq_none.2 (Or.inr (by omega))]

/-- A load from I that meets an address out of bounds. -/
theorem loadAtI_outOfBounds {s : State} (word : Word) {x : Reg} (h : memSize ≤ s.i.toNat + x.val) :
    s.loadAtI word x =
      ((s.setV (s.loadedRegs (max s.i.toNat memSize - s.i.toNat)
        (Config.partialRegs s.freeIndex))).tookFree).raiseFatal
          (.outOfBounds .read (max s.i.toNat memSize)) word := by
  unfold State.loadAtI
  cases hb : firstOutOfBounds s.i.toNat (x.val + 1) with
  | none => have := firstOutOfBounds_eq_none.1 hb; omega
  | some bad => rw [(firstOutOfBounds_eq_some hb).1]

/-- What a load from I can change, whichever way it ends; no register above Vx changes. -/
theorem loadAtI_keeps (s : State) (word : Word) (x : Reg) :
    (∀ p, p ≠ Part.status → p ≠ Part.free → p.kept s (s.loadAtI word x)) ∧
      ∀ r, x < r → (s.loadAtI word x).readV r = s.readV r := by
  by_cases h : s.i.toNat + x.val < memSize
  · rw [loadAtI_inBounds word h]
    refine ⟨fun p _ _ => by cases p <;> simp [Part.kept], fun r hr => ?_⟩
    have hr' : x.val < r.val := hr
    rw [advance_readV, setV_readV, loadedRegs_getElem, if_neg (by omega)]
  · rw [loadAtI_outOfBounds word (by omega)]
    refine ⟨fun p h1 h2 => by cases p <;> simp_all [Part.kept], fun r hr => ?_⟩
    have hr' : x.val < r.val := hr
    rw [raiseFatal_readV, tookFree_readV, setV_readV, loadedRegs_getElem, if_neg (by simp only [memSize] at *; omega)]

/-! ### Late operands (R97) -/

@[simp] theorem lateOperand_latched (s t : State) (r : Reg) : lateOperand .latched s t r = s.readV r := by
  unfold lateOperand
  split <;> rfl

@[simp] theorem lateOperand_sequential (s t : State) (r : Reg) :
    lateOperand .sequential s t r = t.readV r := by
  unfold lateOperand
  split
  · next h => exact h
  · rfl

/-- A register the instruction has not written reads the same in both modes. -/
theorem lateOperand_of_same (m : VfSampling) {s t : State} {r : Reg} (h : t.readV r = s.readV r) :
    lateOperand m s t r = s.readV r := by
  cases m <;> simp [h]

/-! ### The shape of a step (R96) -/

/-- Everything a step can do: nothing while halted, a fetch fault, an unknown opcode, or the decoded
instruction. -/
theorem step_cases (s : State) :
    (s.halted = true ∧ step s = .next s) ∨
    (s.halted = false ∧ ∃ a, s.fetch = .error a ∧ step s = .next (s.fetchFault a)) ∨
    (s.halted = false ∧ ∃ w e, s.fetch = .ok w ∧ decode w = .error e ∧ step s = .next (s.unknownOpcode w)) ∨
    (s.halted = false ∧ ∃ w i, s.fetch = .ok w ∧ decode w = .ok i ∧ step s = exec i s) := by
  unfold step
  cases hh : s.halted
  · cases hf : s.fetch with
    | error a => simp
    | ok w =>
      cases hd : decode w with
      | error e => simp [hd]
      | ok i => simp [hd]
  · simp

/-! ### Frames -/

/-- A part is kept by no change. -/
theorem kept_refl (p : Part) (s : State) : p.kept s s := by
  cases p <;> simp [Part.kept]

/-- A part kept twice is kept. -/
theorem kept_trans {p : Part} {s t u : State} (h : p.kept s t) (k : p.kept t u) : p.kept s u := by
  cases p
  case stack => exact ⟨k.1.trans h.1, fun e => (k.2 e).trans (h.2 e)⟩
  case status => exact ⟨k.1.trans h.1, k.2.trans h.2⟩
  case memory => exact fun a => (k a).trans (h a)
  case display => exact fun x y => (k x y).trans (h x y)
  all_goals exact Eq.trans k h

/-- Frames of two actions, one after the other, make one. -/
theorem keeps_trans {ps : List Part} {rs : List Reg} {s t u : State} (h : Keeps ps rs s t)
    (k : Keeps ps rs t u) : Keeps ps rs s u :=
  ⟨fun p hp => kept_trans (h.1 p hp) (k.1 p hp), fun r hr => (k.2 r hr).trans (h.2 r hr)⟩

/-- A fatal error keeps every part but the status. -/
theorem raiseFatal_keeps (s : State) (c : FatalCause) (w : Word) : Keeps [.status] [] s (s.raiseFatal c w) := by
  refine ⟨fun p hp => ?_, fun r _ => rfl⟩
  cases p <;> simp_all [Part.kept]

end Sys2Proof.Machine
end

