-- ==== Sys2Proof/Laws/Draw.lean ====
section
/-! SUPPORT. Drawing: which pixels a sprite covers, what the rows drawn from a state are, and everything
`finishDraw` does with them (R201, R203). -/

namespace Sys2Proof.Machine

/-- A draw fails at the first of its rows' addresses that is out of bounds. -/
theorem drawFrom_failed (x y : Reg) (n : Fin 16) (s : State) :
    (drawFrom x y n s).failedAt = firstOutOfBounds s.i.toNat n.val := drawRows_failedAt _ _ _ _ _ _ _

/-- Everything a draw does when its rows are in bounds (R203). -/
theorem draw_ok {x y : Reg} {n : Fin 16} {s : State} (h : n.val = 0 ∨ s.i.toNat + n.val ≤ 4096) :
    ∃ t, exec (.drwVxVyN x y n) s = .next t ∧ t.display = (drawFrom x y n s).display ∧
      (∀ r, t.readV r = if r = 15 then flagByte (drawFrom x y n s).collision else s.readV r) ∧
      t.pc = s.pc + 2 ∧ t.i = s.i ∧ t.mem = s.mem ∧ Keeps [.display] [15] s t := by
  have hf : (drawFrom x y n s).failedAt = none := by rw [drawFrom_failed, firstOutOfBounds_eq_none.2 h]
  simp only [exec, execDrwVxVyN]
  refine ⟨_, rfl, ?_⟩
  generalize drawFrom x y n s = run at hf
  simp only [State.finishDraw, hf]
  refine ⟨rfl, fun r => ?_, rfl, rfl, rfl, fun p hp => ?_, fun r hr => ?_⟩
  · simp [setFlag_readV]
  · cases p <;> simp_all [Part.kept]
  · simp at hr
    simp [setFlag_readV, hr]

/-- A pixel off the display reads as 0. -/
theorem pixel_offscreen (d : Display) (x y : Nat) (h : 64 ≤ x ∨ 32 ≤ y) : d.pixel x y = false := by
  unfold Display.pixel
  split
  · next hy =>
    have : y < 32 := hy
    exact BitVec.getLsbD_of_ge _ _ (by omega)
  · rfl

@[simp] theorem spriteCovers_zero (m : Memory) (a x y px py : Nat) : spriteCovers m a x y 0 px py = false := rfl

/-- A search over rows and bits, as an existence. -/
theorem any_range_range (n : Nat) (f : Nat → Nat → Bool) :
    ((List.range n).any fun r => (List.range 8).any fun i => f r i) = true ↔
      ∃ r i, r < n ∧ i < 8 ∧ f r i = true := by
  simp only [List.any_eq_true, List.mem_range]
  constructor
  · rintro ⟨r, hr, i, hi, h⟩
    exact ⟨r, i, hr, hi, h⟩
  · rintro ⟨r, i, hr, hi, h⟩
    exact ⟨r, hr, i, hi, h⟩

/-- The pixels a sprite covers, as an existence. -/
theorem spriteCovers_iff (m : Memory) (a x y n px py : Nat) :
    spriteCovers m a x y n px py = true ↔
      ∃ r i, r < n ∧ i < 8 ∧ py = y + r ∧ px = (x + i) % 64 ∧ spriteBit (m.read (a + r)) i = true := by
  unfold spriteCovers
  rw [any_range_range]
  simp [and_assoc, displayWidth]

/-- The display a draw in bounds makes, pixel by pixel. -/
theorem drawFrom_pixel {x y : Reg} {n : Fin 16} {s : State} (h : n.val = 0 ∨ s.i.toNat + n.val ≤ 4096)
    (px py : Nat) (hy : py < 32) :
    (drawFrom x y n s).display.pixel px py = (s.display.pixel px py !=
      spriteCovers s.mem s.i.toNat (s.readV x).toNat (s.readV y).toNat n.val px py) := by
  rcases h with h | h
  · simp [drawFrom, h, drawRows]
  · exact drawRows_pixel _ _ _ _ _ _ _ _ _ h hy

/-- A draw in bounds collides exactly when the sprite covers a pixel that is 1. -/
theorem drawFrom_collision {x y : Reg} {n : Fin 16} {s : State} (h : n.val = 0 ∨ s.i.toNat + n.val ≤ 4096) :
    (drawFrom x y n s).collision = true ↔ ∃ px py, px < 64 ∧ py < 32 ∧ s.display.pixel px py = true ∧
      spriteCovers s.mem s.i.toNat (s.readV x).toNat (s.readV y).toNat n.val px py = true := by
  rcases h with h | h
  · simp [drawFrom, h, drawRows]
  · unfold drawFrom
    rw [drawRows_collision s.mem (s.readV x).toNat n.val s.i.toNat (s.readV y).toNat s.display false h,
      Bool.false_or, any_range_range]
    simp only [spriteCovers_iff]
    constructor
    · rintro ⟨r, i, hr, hi, hb⟩
      rw [Bool.and_eq_true] at hb
      refine ⟨((s.readV x).toNat + i) % 64, (s.readV y).toNat + r, by omega, ?_, hb.1,
        r, i, hr, hi, rfl, rfl, hb.2⟩
      by_contra hc
      rw [pixel_offscreen _ _ _ (Or.inr (by omega))] at hb
      simp at hb
    · rintro ⟨px, py, hx, hy, hp, r, i, hr, hi, rfl, rfl, hb⟩
      exact ⟨r, i, hr, hi, by simp [hp, hb]⟩

/-- A draw keeps I, whichever way it ends. -/
@[simp] theorem finishDraw_i (s : State) (run : DrawRun) (w : Word) : (s.finishDraw run w).i = s.i := by
  unfold State.finishDraw
  split <;> simp

/-- A draw keeps memory, whichever way it ends. -/
@[simp] theorem finishDraw_mem (s : State) (run : DrawRun) (w : Word) : (s.finishDraw run w).mem = s.mem := by
  unfold State.finishDraw
  split <;> simp

/-- What a draw can change, whichever way it ends. -/
theorem finishDraw_keeps (s : State) (run : DrawRun) (w : Word) :
    Keeps [.display, .status, .free] [15] s (s.finishDraw run w) := by
  unfold State.finishDraw
  refine ⟨fun p hp => ?_, fun r hr => ?_⟩
  · cases p <;> simp_all [Part.kept] <;> split <;> simp
  · simp at hr
    split <;> simp [setFlag_readV, hr]

end Sys2Proof.Machine
end

