-- ==== Sys2Proof/Laws/Encoding.lean ====
section
/-! SUPPORT. The fields of an encoded word, one lemma for each field of each form (R93), a word put together again
from its fields, and the two bytes of a word (R64). -/

namespace Sys2Proof

/-! ### The bytes of a word (R64) -/

theorem hi_word (a b : Byte) : (wordOfBytes a b).extractLsb' 8 8 = a := by
  apply BitVec.eq_of_getLsbD_eq
  intro i hi
  interval_cases i <;> simp [wordOfBytes]

theorem lo_word (a b : Byte) : (wordOfBytes a b).extractLsb' 0 8 = b := by
  apply BitVec.eq_of_getLsbD_eq
  intro i hi
  interval_cases i <;> simp [wordOfBytes]

/-- A word is its two bytes. -/
theorem bytes_word (w : Word) : wordOfBytes (hiByte w) (loByte w) = w := by
  apply BitVec.eq_of_getLsbD_eq
  intro i hi
  interval_cases i <;> simp [wordOfBytes, hiByte, loByte]

/-! ### The fields of an encoded word (R92, R93) -/

theorem op_nnn (op : Nibble) (nnn : Addr12) : opOf (encNNN op nnn) = op := by
  apply BitVec.eq_of_getLsbD_eq
  intro i hi
  interval_cases i <;> simp [encNNN, opOf]

theorem nnn_nnn (op : Nibble) (nnn : Addr12) : nnnOf (encNNN op nnn) = nnn := by
  apply BitVec.eq_of_getLsbD_eq
  intro i hi
  interval_cases i <;> simp [encNNN, nnnOf]

theorem op_xkk (op : Nibble) (x : Reg) (kk : Byte) : opOf (encXKK op x kk) = op := by
  apply BitVec.eq_of_getLsbD_eq
  intro i hi
  interval_cases i <;> simp [encXKK, opOf]

theorem x_xkk (op : Nibble) (x : Reg) (kk : Byte) : xOf (encXKK op x kk) = x := by
  have h : (encXKK op x kk).extractLsb' 8 4 = regBits x := by
    apply BitVec.eq_of_getLsbD_eq
    intro i hi
    interval_cases i <;> simp [encXKK]
  unfold xOf
  rw [h]
  rfl

theorem kk_xkk (op : Nibble) (x : Reg) (kk : Byte) : kkOf (encXKK op x kk) = kk := by
  apply BitVec.eq_of_getLsbD_eq
  intro i hi
  interval_cases i <;> simp [encXKK, kkOf]

theorem op_xyn (op : Nibble) (x y : Reg) (n : Nibble) : opOf (encXYN op x y n) = op := by
  apply BitVec.eq_of_getLsbD_eq
  intro i hi
  interval_cases i <;> simp [encXYN, opOf]

theorem x_xyn (op : Nibble) (x y : Reg) (n : Nibble) : xOf (encXYN op x y n) = x := by
  have h : (encXYN op x y n).extractLsb' 8 4 = regBits x := by
    apply BitVec.eq_of_getLsbD_eq
    intro i hi
    interval_cases i <;> simp [encXYN]
  unfold xOf
  rw [h]
  rfl

theorem y_xyn (op : Nibble) (x y : Reg) (n : Nibble) : yOf (encXYN op x y n) = y := by
  have h : (encXYN op x y n).extractLsb' 4 4 = regBits y := by
    apply BitVec.eq_of_getLsbD_eq
    intro i hi
    interval_cases i <;> simp [encXYN]
  unfold yOf
  rw [h]
  rfl

theorem n_xyn (op : Nibble) (x y : Reg) (n : Nibble) : nOf (encXYN op x y n) = n.toFin := by
  have h : (encXYN op x y n).extractLsb' 0 4 = n := by
    apply BitVec.eq_of_getLsbD_eq
    intro i hi
    interval_cases i <;> simp [encXYN]
  unfold nOf
  rw [h]

/-! ### A word put together again from its fields -/

theorem nnn_split (w : Word) : encNNN (opOf w) (nnnOf w) = w := by
  apply BitVec.eq_of_getLsbD_eq
  intro i hi
  interval_cases i <;> simp [encNNN, opOf, nnnOf]

theorem xkk_split (w : Word) : encXKK (opOf w) (xOf w) (kkOf w) = w := by
  have h : regBits (xOf w) = w.extractLsb' 8 4 := rfl
  unfold encXKK
  rw [h]
  apply BitVec.eq_of_getLsbD_eq
  intro i hi
  interval_cases i <;> simp [opOf, kkOf]

theorem xyn_split (w : Word) : encXYN (opOf w) (xOf w) (yOf w) (BitVec.ofFin (nOf w)) = w := by
  have h1 : regBits (xOf w) = w.extractLsb' 8 4 := rfl
  have h2 : regBits (yOf w) = w.extractLsb' 4 4 := rfl
  have h3 : BitVec.ofFin (nOf w) = w.extractLsb' 0 4 := rfl
  unfold encXYN
  rw [h1, h2, h3]
  apply BitVec.eq_of_getLsbD_eq
  intro i hi
  interval_cases i <;> simp [opOf]

/-- The sixteen values of `op`. -/
theorem op_cases (o : Nibble) :
    (o = 0 ∨ o = 1 ∨ o = 2 ∨ o = 3 ∨ o = 4 ∨ o = 5 ∨ o = 6 ∨ o = 7) ∨
    (o = 8 ∨ o = 9 ∨ o = 10 ∨ o = 11 ∨ o = 12 ∨ o = 13 ∨ o = 14 ∨ o = 15) := by
  have := o.isLt
  simp only [← BitVec.toNat_inj]
  simp
  omega

end Sys2Proof
end

