-- ==== Sys2Proof/Laws/PerInstr.lean ====
section
/-! SUPPORT. Facts about each instruction as syntax, one lemma per constructor: its operands fit their fields, and
its word belongs to its row of the opcode table and to the field positions of R91. -/

namespace Sys2Proof

/-! ### Fields of the encoding's formats (R92) -/

theorem row_nnn (op : Nibble) (nnn : Addr12) : encNNN op nnn &&& 0xF000#16 = op.setWidth 16 <<< 12 := by
  apply BitVec.eq_of_getLsbD_eq
  intro i hi
  interval_cases i <;> simp [encNNN]

theorem row_xkk (op : Nibble) (x : Reg) (kk : Byte) : encXKK op x kk &&& 0xF000#16 = op.setWidth 16 <<< 12 := by
  apply BitVec.eq_of_getLsbD_eq
  intro i hi
  interval_cases i <;> simp [encXKK]

theorem row_xff (op : Nibble) (x : Reg) (kk : Byte) : encXKK op x kk &&& 0xF0FF#16 = op.setWidth 16 <<< 12 ||| kk.setWidth 16 := by
  apply BitVec.eq_of_getLsbD_eq
  intro i hi
  interval_cases i <;> simp [encXKK]

theorem row_xyf (op : Nibble) (x y : Reg) (n : Nibble) : encXYN op x y n &&& 0xF00F#16 = op.setWidth 16 <<< 12 ||| n.setWidth 16 := by
  apply BitVec.eq_of_getLsbD_eq
  intro i hi
  interval_cases i <;> simp [encXYN]

theorem row_xyn (op : Nibble) (x y : Reg) (n : Nibble) : encXYN op x y n &&& 0xF000#16 = op.setWidth 16 <<< 12 := by
  apply BitVec.eq_of_getLsbD_eq
  intro i hi
  interval_cases i <;> simp [encXYN]

end Sys2Proof

namespace Sys2Proof.Laws.TableRow

/-- The instruction's operands fit their fields, and its word belongs to its own row of the opcode table. -/
def Statement (i : Instr) : Prop := i.wellFormed = true ∧ i.row.covers (encode i) = true

/-- Operand values held in their types fit their fields. -/
@[simp] theorem fits_x (r : Reg) : Field.x.fits r.val = true := decide_eq_true r.isLt

@[simp] theorem fits_y (r : Reg) : Field.y.fits r.val = true := decide_eq_true r.isLt

@[simp] theorem fits_n (n : Fin 16) : Field.n.fits n.val = true := decide_eq_true n.isLt

@[simp] theorem fits_kk (b : Byte) : Field.kk.fits b.toNat = true := decide_eq_true b.isLt

@[simp] theorem fits_nnn (a : Addr12) : Field.nnn.fits a.toNat = true := decide_eq_true a.isLt

theorem cls : Statement .cls := ⟨rfl, by decide⟩

theorem ret : Statement .ret := ⟨rfl, by decide⟩

theorem jp (nnn : Addr12) : Statement (.jp nnn) := by
  simp [Statement, Instr.wellFormed, operandsFit, Instr.operands, OpcodeRow.covers,
    Instr.row, encode, row_nnn]

theorem call (nnn : Addr12) : Statement (.call nnn) := by
  simp [Statement, Instr.wellFormed, operandsFit, Instr.operands, OpcodeRow.covers,
    Instr.row, encode, row_nnn]

theorem seVxKk (x : Reg) (kk : Byte) : Statement (.seVxKk x kk) := by
  simp [Statement, Instr.wellFormed, operandsFit, Instr.operands, OpcodeRow.covers,
    Instr.row, encode, row_xkk]

theorem sneVxKk (x : Reg) (kk : Byte) : Statement (.sneVxKk x kk) := by
  simp [Statement, Instr.wellFormed, operandsFit, Instr.operands, OpcodeRow.covers,
    Instr.row, encode, row_xkk]

theorem ldVxKk (x : Reg) (kk : Byte) : Statement (.ldVxKk x kk) := by
  simp [Statement, Instr.wellFormed, operandsFit, Instr.operands, OpcodeRow.covers,
    Instr.row, encode, row_xkk]

theorem addVxKk (x : Reg) (kk : Byte) : Statement (.addVxKk x kk) := by
  simp [Statement, Instr.wellFormed, operandsFit, Instr.operands, OpcodeRow.covers,
    Instr.row, encode, row_xkk]

theorem ldVxVy (x : Reg) (y : Reg) : Statement (.ldVxVy x y) := by
  simp [Statement, Instr.wellFormed, operandsFit, Instr.operands, OpcodeRow.covers,
    Instr.row, encode, row_xyf]

theorem orVxVy (x : Reg) (y : Reg) : Statement (.orVxVy x y) := by
  simp [Statement, Instr.wellFormed, operandsFit, Instr.operands, OpcodeRow.covers,
    Instr.row, encode, row_xyf]

theorem andVxVy (x : Reg) (y : Reg) : Statement (.andVxVy x y) := by
  simp [Statement, Instr.wellFormed, operandsFit, Instr.operands, OpcodeRow.covers,
    Instr.row, encode, row_xyf]

theorem xorVxVy (x : Reg) (y : Reg) : Statement (.xorVxVy x y) := by
  simp [Statement, Instr.wellFormed, operandsFit, Instr.operands, OpcodeRow.covers,
    Instr.row, encode, row_xyf]

theorem addVxVy (x : Reg) (y : Reg) : Statement (.addVxVy x y) := by
  simp [Statement, Instr.wellFormed, operandsFit, Instr.operands, OpcodeRow.covers,
    Instr.row, encode, row_xyf]

theorem subVxVy (x : Reg) (y : Reg) : Statement (.subVxVy x y) := by
  simp [Statement, Instr.wellFormed, operandsFit, Instr.operands, OpcodeRow.covers,
    Instr.row, encode, row_xyf]

theorem shrVx (x : Reg) (y : Reg) : Statement (.shrVx x y) := by
  simp [Statement, Instr.wellFormed, operandsFit, Instr.operands, OpcodeRow.covers,
    Instr.row, encode, row_xyf]

theorem sneVxVy (x : Reg) (y : Reg) : Statement (.sneVxVy x y) := by
  simp [Statement, Instr.wellFormed, operandsFit, Instr.operands, OpcodeRow.covers,
    Instr.row, encode, row_xyf]

theorem ldINnn (nnn : Addr12) : Statement (.ldINnn nnn) := by
  simp [Statement, Instr.wellFormed, operandsFit, Instr.operands, OpcodeRow.covers,
    Instr.row, encode, row_nnn]

theorem jpV0Nnn (nnn : Addr12) : Statement (.jpV0Nnn nnn) := by
  simp [Statement, Instr.wellFormed, operandsFit, Instr.operands, OpcodeRow.covers,
    Instr.row, encode, row_nnn]

theorem rndVxKk (x : Reg) (kk : Byte) : Statement (.rndVxKk x kk) := by
  simp [Statement, Instr.wellFormed, operandsFit, Instr.operands, OpcodeRow.covers,
    Instr.row, encode, row_xkk]

theorem drwVxVyN (x : Reg) (y : Reg) (n : Fin 16) : Statement (.drwVxVyN x y n) := by
  simp [Statement, Instr.wellFormed, operandsFit, Instr.operands, OpcodeRow.covers,
    Instr.row, encode, row_xyn]

theorem skpVx (x : Reg) : Statement (.skpVx x) := by
  simp [Statement, Instr.wellFormed, operandsFit, Instr.operands, OpcodeRow.covers,
    Instr.row, encode, row_xff]

theorem sknpVx (x : Reg) : Statement (.sknpVx x) := by
  simp [Statement, Instr.wellFormed, operandsFit, Instr.operands, OpcodeRow.covers,
    Instr.row, encode, row_xff]

theorem ldVxDt (x : Reg) : Statement (.ldVxDt x) := by
  simp [Statement, Instr.wellFormed, operandsFit, Instr.operands, OpcodeRow.covers,
    Instr.row, encode, row_xff]

theorem ldVxK (x : Reg) : Statement (.ldVxK x) := by
  simp [Statement, Instr.wellFormed, operandsFit, Instr.operands, OpcodeRow.covers,
    Instr.row, encode, row_xff]

theorem ldDtVx (x : Reg) : Statement (.ldDtVx x) := by
  simp [Statement, Instr.wellFormed, operandsFit, Instr.operands, OpcodeRow.covers,
    Instr.row, encode, row_xff]

theorem addIVx (x : Reg) : Statement (.addIVx x) := by
  simp [Statement, Instr.wellFormed, operandsFit, Instr.operands, OpcodeRow.covers,
    Instr.row, encode, row_xff]

theorem ldFVx (x : Reg) : Statement (.ldFVx x) := by
  simp [Statement, Instr.wellFormed, operandsFit, Instr.operands, OpcodeRow.covers,
    Instr.row, encode, row_xff]

theorem ldBVx (x : Reg) : Statement (.ldBVx x) := by
  simp [Statement, Instr.wellFormed, operandsFit, Instr.operands, OpcodeRow.covers,
    Instr.row, encode, row_xff]

theorem ldMemIVx (x : Reg) : Statement (.ldMemIVx x) := by
  simp [Statement, Instr.wellFormed, operandsFit, Instr.operands, OpcodeRow.covers,
    Instr.row, encode, row_xff]

theorem ldVxMemI (x : Reg) : Statement (.ldVxMemI x) := by
  simp [Statement, Instr.wellFormed, operandsFit, Instr.operands, OpcodeRow.covers,
    Instr.row, encode, row_xff]

end Sys2Proof.Laws.TableRow

namespace Sys2Proof

/-- Every instruction has its statement. -/
theorem tableRow (i : Instr) : Laws.TableRow.Statement i := by
  cases i with
  | cls => exact Laws.TableRow.cls
  | ret => exact Laws.TableRow.ret
  | jp nnn => exact Laws.TableRow.jp nnn
  | call nnn => exact Laws.TableRow.call nnn
  | seVxKk x kk => exact Laws.TableRow.seVxKk x kk
  | sneVxKk x kk => exact Laws.TableRow.sneVxKk x kk
  | ldVxKk x kk => exact Laws.TableRow.ldVxKk x kk
  | addVxKk x kk => exact Laws.TableRow.addVxKk x kk
  | ldVxVy x y => exact Laws.TableRow.ldVxVy x y
  | orVxVy x y => exact Laws.TableRow.orVxVy x y
  | andVxVy x y => exact Laws.TableRow.andVxVy x y
  | xorVxVy x y => exact Laws.TableRow.xorVxVy x y
  | addVxVy x y => exact Laws.TableRow.addVxVy x y
  | subVxVy x y => exact Laws.TableRow.subVxVy x y
  | shrVx x y => exact Laws.TableRow.shrVx x y
  | sneVxVy x y => exact Laws.TableRow.sneVxVy x y
  | ldINnn nnn => exact Laws.TableRow.ldINnn nnn
  | jpV0Nnn nnn => exact Laws.TableRow.jpV0Nnn nnn
  | rndVxKk x kk => exact Laws.TableRow.rndVxKk x kk
  | drwVxVyN x y n => exact Laws.TableRow.drwVxVyN x y n
  | skpVx x => exact Laws.TableRow.skpVx x
  | sknpVx x => exact Laws.TableRow.sknpVx x
  | ldVxDt x => exact Laws.TableRow.ldVxDt x
  | ldVxK x => exact Laws.TableRow.ldVxK x
  | ldDtVx x => exact Laws.TableRow.ldDtVx x
  | addIVx x => exact Laws.TableRow.addIVx x
  | ldFVx x => exact Laws.TableRow.ldFVx x
  | ldBVx x => exact Laws.TableRow.ldBVx x
  | ldMemIVx x => exact Laws.TableRow.ldMemIVx x
  | ldVxMemI x => exact Laws.TableRow.ldVxMemI x

/-- Every instruction is well formed: the types of its operands carry the check. -/
theorem wellFormed (i : Instr) : i.wellFormed = true := (tableRow i).1

end Sys2Proof
end

