-- ==== Sys2Proof/Laws/Run.lean ====
section
/-! SUPPORT. Runs of the core: one more step, and a state that steps to itself. -/

namespace Sys2Proof.Machine

/-- One more step of a run. -/
theorem run_succ (M : Host.Core) (k : Nat) (s : M.State) :
    M.run (k + 1) s =
      match M.step s with
      | .next t => M.run k t
      | .fault r => .fault r
      | .refused r => .refused r := rfl

/-- A run whose first step is known. -/
theorem core_run_next {s t : State} (h : step s = .next t) (n : Nat) :
    Sys2Proof.core.run (n + 1) s = Sys2Proof.core.run n t := by
  have e := run_succ Sys2Proof.core n s
  rw [show Sys2Proof.core.step s = .next t from h] at e
  exact e

/-- A state that steps to itself is where every run from it ends. -/
theorem core_run_of_step_self {s : State} (h : step s = .next s) (n : Nat) :
    Sys2Proof.core.run n s = .next s := by
  induction n with
  | zero => rfl
  | succ n ih => exact (core_run_next h n).trans ih

end Sys2Proof.Machine
end

