-- ==== Sys2Proof/Laws/Stores.lean ====
section
/-! SUPPORT. Stores at I: what one that succeeds and one that meets an address out of bounds do (R183, R184,
R246). -/

namespace Sys2Proof.Machine

/-- The address of R61 for accesses from I on, as the record holds it. -/
theorem badAtI_eq (s : State) : BitVec.ofNat 16 (max s.i.toNat memSize) = s.badAtI := by
  unfold State.badAtI
  split
  · next h => rw [max_eq_right (le_of_lt h)]; rfl
  · next h => rw [max_eq_left (not_lt.1 h)]; simp

/-- A failing store is a fatal error with op WRITE (R183, R184). -/
theorem failStore_fatal (s : State) (w : Word) (bytes : List Byte) :
    FatalAt s (s.failStore w bytes (max s.i.toNat memSize)) 1 3 w s.badAtI := by
  refine ⟨?_, rfl⟩
  rw [← badAtI_eq]
  rfl

/-- A failing store keeps every part but memory, status and the model's counter. -/
theorem failStore_keeps (s : State) (w : Word) (bytes : List Byte) (bad : Nat) :
    Keeps [.memory, .status, .free] [] s (s.failStore w bytes bad) := by
  refine ⟨fun p hp => ?_, fun _ _ => rfl⟩
  cases p <;> simp_all [Part.kept, State.failStore]

/-- Memory after a failing store, and how many bytes it could write. -/
theorem failStore_mem (s : State) (w : Word) (bytes : List Byte) (bad : Nat) :
    (s.failStore w bytes bad).mem =
      s.mem.storeWhere (Config.partialBytes s.freeIndex) s.i.toNat (bytes.take (bad - s.i.toNat)) := rfl

/-- After a failing store each byte is old or new (R246). -/
theorem failStore_read {s : State} (hw : s.mem.wf = true) (w : Word) (bytes : List Byte)
    {k : Nat} (hk : k < bytes.length) :
    (s.failStore w bytes (max s.i.toNat memSize)).mem.read (s.i.toNat + k) = s.mem.read (s.i.toNat + k) ∨
    (s.failStore w bytes (max s.i.toNat memSize)).mem.read (s.i.toNat + k) = bytes[k] := by
  rw [failStore_mem]
  generalize hd : max s.i.toNat memSize - s.i.toNat = d
  have hlen : (bytes.take d).length = min d bytes.length := List.length_take
  cases hl : Config.partialBytes s.freeIndex (s.i.toNat + k)
  · exact Or.inl (read_storeWhere_other _ _ _ _ (Or.inr (Or.inr hl)))
  · by_cases h2 : k < d
    · have hk' : k < (bytes.take d).length := by omega
      rw [read_storeWhere_at _ hw (by omega) hk' hl]
      simp
    · exact Or.inl (read_storeWhere_other _ _ _ _ (Or.inr (Or.inl (by omega))))

/-- A failing store leaves every byte outside the addresses it could write. -/
theorem failStore_outside (s : State) (w : Word) (bytes : List Byte) :
    KeepsMemoryOutside s.i.toNat (4096 - s.i.toNat) s (s.failStore w bytes (max s.i.toNat memSize)) := by
  intro b hb
  rw [failStore_mem]
  refine read_storeWhere_other _ _ _ _ ?_
  rw [List.length_take]
  simp only [memSize]
  omega

/-- Everything a store at I does when its addresses are in bounds. -/
theorem storeAtI_ok {s : State} (hw : s.mem.wf = true) (w : Word) {bytes : List Byte}
    (h : s.i.toNat + bytes.length ≤ 4096) :
    (∀ k (hk : k < bytes.length), (s.storeAtI w bytes).mem.read (s.i.toNat + k) = bytes[k]) ∧
      KeepsMemoryOutside s.i.toNat bytes.length s (s.storeAtI w bytes) ∧
      (s.storeAtI w bytes).pc = s.pc + 2 ∧ Keeps [.memory] [] s (s.storeAtI w bytes) := by
  rw [storeAtI_inBounds w (Or.inr h)]
  refine ⟨fun k hk => read_store_at hw h hk, fun b hb => read_store_other _ _ _ hb, rfl, ?_, fun _ _ => rfl⟩
  intro p hp
  cases p <;> simp_all [Part.kept]

/-- A store at I keeps I, whichever way it ends. -/
@[simp] theorem storeAtI_i (s : State) (w : Word) (bs : List Byte) : (s.storeAtI w bs).i = s.i := by
  unfold State.storeAtI
  split <;> rfl

/-- A store at I keeps the registers, whichever way it ends. -/
@[simp] theorem storeAtI_v (s : State) (w : Word) (bs : List Byte) : (s.storeAtI w bs).v = s.v := by
  unfold State.storeAtI
  split <;> rfl

/-- What a store at I can change, whichever way it ends. -/
theorem storeAtI_keeps (s : State) (w : Word) (bs : List Byte) :
    Keeps [.memory, .status, .free] [] s (s.storeAtI w bs) := by
  unfold State.storeAtI
  split
  · refine ⟨fun p hp => ?_, fun _ _ => rfl⟩
    cases p <;> simp_all [Part.kept]
  · exact failStore_keeps _ _ _ _

/-- A store at I keeps the canonical form of memory, whichever way it ends. -/
theorem storeAtI_wf {s : State} (hw : s.mem.wf = true) (w : Word) (bs : List Byte) :
    (s.storeAtI w bs).mem.wf = true := by
  unfold State.storeAtI
  split
  · next h => exact store_wf hw (firstOutOfBounds_eq_none.1 h)
  · next bad h =>
    obtain ⟨h1, h2, h3⟩ := firstOutOfBounds_eq_some h
    refine storeWhere_wf _ hw ?_
    rw [List.length_take]
    simp only [memSize] at *
    omega

end Sys2Proof.Machine
end

