-- ==== Sys2Proof/Tests/Slice0.lean ====
section
/-! SUPPORT. The model's own tests: the operand check, decoding of words written out from the spec's encodings,
single steps of the spec's test vectors (95_test_vectors.md, its row named at each), and for every statement with
hypotheses a state that meets them. -/

namespace Sys2Proof.Tests

open Sys2Proof Sys2Proof.Machine

/-! ### The operand check: one value out of range for each field (R91) -/

theorem test_wellFormed_refuses_x : operandsFit [(.x, 16), (.kk, 0)] = false := by decide

theorem test_wellFormed_refuses_y : operandsFit [(.x, 0), (.y, 16)] = false := by decide

theorem test_wellFormed_refuses_n : operandsFit [(.x, 0), (.y, 0), (.n, 16)] = false := by decide

theorem test_wellFormed_refuses_kk : operandsFit [(.x, 0), (.kk, 256)] = false := by decide

theorem test_wellFormed_refuses_nnn : operandsFit [(.nnn, 4096)] = false := by decide

theorem test_wellFormed_accepts_the_largest :
    operandsFit [(.x, 15), (.y, 15), (.n, 15), (.kk, 255), (.nnn, 4095)] = true := by decide

/-! ### Decoding: every constructor's word, written out from the layouts of R92 and the patterns of R99 -/

theorem test_decode_fix :
    decodeTableWord 16 0b0000000011100000 = some .cls ∧ decodeTableWord 16 0b0000000011101110 = some .ret := by
  decide

theorem test_decode_nnn :
    decodeTableWord 16 0b0001001010100100 = some (.jp 0x2A4) ∧
    decodeTableWord 16 0b0010001100000000 = some (.call 0x300) ∧
    decodeTableWord 16 0b1010000100100011 = some (.ldINnn 0x123) ∧
    decodeTableWord 16 0b1011001100000000 = some (.jpV0Nnn 0x300) := by decide

theorem test_decode_xkk :
    decodeTableWord 16 0b0011001101000010 = some (.seVxKk 3 0x42) ∧
    decodeTableWord 16 0b0100001101000010 = some (.sneVxKk 3 0x42) ∧
    decodeTableWord 16 0b0110101001011100 = some (.ldVxKk 0xA 0x5C) ∧
    decodeTableWord 16 0b0111000100001010 = some (.addVxKk 1 0x0A) ∧
    decodeTableWord 16 0b1100001100001111 = some (.rndVxKk 3 0x0F) := by decide

theorem test_decode_xyf :
    decodeTableWord 16 0b1000000100100000 = some (.ldVxVy 1 2) ∧
    decodeTableWord 16 0b1000000100100001 = some (.orVxVy 1 2) ∧
    decodeTableWord 16 0b1000000100100010 = some (.andVxVy 1 2) ∧
    decodeTableWord 16 0b1000000100100011 = some (.xorVxVy 1 2) ∧
    decodeTableWord 16 0b1000000100100100 = some (.addVxVy 1 2) ∧
    decodeTableWord 16 0b1000000100100101 = some (.subVxVy 1 2) ∧
    decodeTableWord 16 0b1000010001010110 = some (.shrVx 4 5) ∧
    decodeTableWord 16 0b1001000100100000 = some (.sneVxVy 1 2) := by decide

theorem test_decode_xyn : decodeTableWord 16 0b1101000100100101 = some (.drwVxVyN 1 2 5) := by decide

theorem test_decode_xff :
    decodeTableWord 16 0b1110001110011110 = some (.skpVx 3) ∧
    decodeTableWord 16 0b1110001110100001 = some (.sknpVx 3) ∧
    decodeTableWord 16 0b1111001100000111 = some (.ldVxDt 3) ∧
    decodeTableWord 16 0b1111001100001010 = some (.ldVxK 3) ∧
    decodeTableWord 16 0b1111001100010101 = some (.ldDtVx 3) ∧
    decodeTableWord 16 0b1111001100011110 = some (.addIVx 3) ∧
    decodeTableWord 16 0b1111001100101001 = some (.ldFVx 3) ∧
    decodeTableWord 16 0b1111001100110011 = some (.ldBVx 3) ∧
    decodeTableWord 16 0b1111001101010101 = some (.ldMemIVx 3) ∧
    decodeTableWord 16 0b1111001101100101 = some (.ldVxMemI 3) := by decide

/-- Vectors E2 to E14: words that are no instruction. -/
theorem test_decode_refuses :
    [0x01E0, 0x0000, 0x00FF, 0x0EEE, 0x5120, 0x8127, 0x812E].all (fun w => decodeTableWord 16 w == none) ∧
    [0x8128, 0x9AB1, 0xE19F, 0xF118, 0xF175, 0xFF0B].all (fun w => decodeTableWord 16 w == none) := by decide

theorem test_decode_refuses_one_byte : decodeBytes [0x12] = .error .truncated := by rfl

/-! ### Single steps -/

/-- The recommended reset instance with the word at 0x200, as the conventions of 95_test_vectors.md say. -/
def at200 (w : Nat) : State := State.reset.withFetchWord 16 w

/-- The state after one step. -/
def after (s : State) : State :=
  match step s with
  | .next t => t
  | .fault _ => s
  | .refused _ => s

/-- Put one byte in memory. -/
def poke (a : Nat) (b : Byte) (s : State) : State := s.setMem (s.mem.write a b)

/-- A state whose stack is full. -/
def full (s : State) : State := { s with sp := 16, stack := Vector.replicate 16 0x202 }

/-- A state with one entry on its stack. -/
def oneDeep (s : State) : State := { s with sp := 1, stack := Vector.replicate 16 0x20A }

/-- Vectors E1 and E17: big-endian fetch, at an odd address too. -/
theorem test_fetch :
    (after (at200 0x1234)).pc = 0x234 ∧
    (after ((State.reset.setPc 0x201).withFetchWord 16 0x1300)).pc = 0x300 := by decide

/-- Vectors E15 and E16. -/
theorem test_fetch_out_of_bounds :
    (after (State.reset.setPc 0xFFF)).statusPorts = ⟨true, 1, 1, 0xFFF, 0, 0x1000⟩ ∧
    (after (State.reset.setPc 0x1000)).statusPorts = ⟨true, 1, 1, 0x1000, 0, 0x1000⟩ ∧
    (after (State.reset.setPc 0x10FE)).statusPorts = ⟨true, 1, 1, 0x10FE, 0, 0x10FE⟩ := by decide

/-- W10, H5 and H1: an unknown word, an empty ROM, and a step request while halted. -/
theorem test_unknown_opcode :
    (after (at200 0x5120)).statusPorts = ⟨true, 2, 0, 0x200, 0x5120, 0⟩ ∧
    (after State.reset).statusPorts = ⟨true, 2, 0, 0x200, 0, 0⟩ ∧
    after (after (at200 0x5120)) = after (at200 0x5120) := by decide

/-- The word placed for a step is what the step runs, also where no fetch would succeed. -/
theorem test_withFetchWord :
    step (State.reset.withFetchWord 16 0x60FA) = exec (.ldVxKk 0 0xFA) (State.reset.withFetchWord 16 0x60FA) ∧
    ((State.reset.setPc 0xFFF).withFetchWord 16 0x60FA).fetch = .ok 0x60FA := ⟨rfl, by decide⟩

/-- W8: any pixel set before is 0 after. -/
theorem test_cls :
    (after ((at200 0x00E0).setDisplay ⟨Vector.replicate 32 0xFF⟩)).display = .blank ∧
    (after (at200 0x00E0)).pc = 0x202 := by decide

/-- F5 and F6. -/
theorem test_ret :
    (after (oneDeep (at200 0x00EE))).pc = 0x20A ∧ (after (oneDeep (at200 0x00EE))).sp = 0 ∧
    (after (at200 0x00EE)).statusPorts = ⟨true, 3, 0, 0x200, 0x00EE, 0⟩ := by decide

/-- F2. -/
theorem test_jp : (after (at200 0x1FFF)).pc = 0xFFF := by decide

/-- F3 and F4. -/
theorem test_call :
    (after (at200 0x2400)).pc = 0x400 ∧ (after (at200 0x2400)).sp = 1 ∧
    (after (at200 0x2400)).stack[0] = 0x202 ∧
    (after (full (at200 0x2400))).statusPorts = ⟨true, 1, 4, 0x200, 0x2400, 16⟩ ∧
    (after (full (at200 0x2400))).pc = 0x200 := by decide

/-- F7 and F8. -/
theorem test_se :
    (after ((at200 0x3422).writeV 4 0x22)).pc = 0x204 ∧ (after ((at200 0x3422).writeV 4 0x21)).pc = 0x202 := by
  decide

/-- F9 and F10. -/
theorem test_sne_kk :
    (after ((at200 0x4422).writeV 4 0x21)).pc = 0x204 ∧ (after ((at200 0x4422).writeV 4 0x22)).pc = 0x202 := by
  decide

/-- F11 and F13. -/
theorem test_sne_vy :
    (after (((at200 0x9120).writeV 1 7).writeV 2 8)).pc = 0x204 ∧
    (after ((at200 0x9110).writeV 1 7)).pc = 0x202 := by decide

/-- F15 and F16. -/
theorem test_jp_v0 :
    (after ((at200 0xBFFF).writeV 0 0x10)).pc = 0x100F ∧ (after ((at200 0xBF01).writeV 0 0xFF)).pc = 0x1000 := by
  decide

/-- A1. -/
theorem test_ld_kk : (after (at200 0x6AFF)).readV 0xA = 0xFF := by decide

/-- A2 and A3. -/
theorem test_add_kk :
    (after (((at200 0x7001).writeV 0 0xFF).writeV 15 0x33)).readV 0 = 0 ∧
    (after (((at200 0x7001).writeV 0 0xFF).writeV 15 0x33)).readV 15 = 0x33 ∧
    (after ((at200 0x7F05).writeV 15 0x10)).readV 15 = 0x15 := by decide

/-- A4. -/
theorem test_ld_vy : (after ((at200 0x8120).writeV 2 0x5A)).readV 1 = 0x5A := by decide

/-- V1, V2 and VF set, one step. -/
def alu (w : Nat) (v1 v2 vf : Byte) : State :=
  after ((((at200 w).writeV 1 v1).writeV 2 v2).writeV 15 vf)

/-- A5. -/
theorem test_or : (alu 0x8121 0xF0 0x0F 7).readV 1 = 0xFF ∧ (alu 0x8121 0xF0 0x0F 7).readV 15 = 7 := by decide

/-- A6. -/
theorem test_and : (alu 0x8122 0xF0 0x3C 7).readV 1 = 0x30 ∧ (alu 0x8122 0xF0 0x3C 7).readV 15 = 7 := by decide

/-- A7 and A8. -/
theorem test_xor :
    (alu 0x8123 0xFF 0x0F 7).readV 1 = 0xF0 ∧ (alu 0x8123 0xFF 0x0F 7).readV 15 = 7 ∧
    (alu 0x8113 0x55 0 7).readV 1 = 0 := by decide

/-- A9, A10 and A11. -/
theorem test_add :
    (alu 0x8124 0xFF 1 7).readV 1 = 0 ∧ (alu 0x8124 0xFF 1 7).readV 15 = 1 ∧
    (alu 0x8124 0x80 0x7F 7).readV 1 = 0xFF ∧ (alu 0x8124 0x80 0x7F 7).readV 15 = 0 ∧
    (alu 0x8114 0x80 0 7).readV 1 = 0 ∧ (alu 0x8114 0x80 0 7).readV 15 = 1 := by decide

/-- A12 and A13: VF as destination and as operand. -/
theorem test_add_vf :
    (alu 0x8F14 0x90 0 0x80).readV 15 = 1 ∧
    (alu 0x81F4 0x90 0 0x80).readV 1 = 0x10 ∧ (alu 0x81F4 0x90 0 0x80).readV 15 = 1 := by decide

/-- A14 and A15: equal operands are a borrow, and a wrap. -/
theorem test_sub :
    (alu 0x8125 7 7 9).readV 1 = 0 ∧ (alu 0x8125 7 7 9).readV 15 = 0 ∧
    (alu 0x8125 0 0xFF 9).readV 1 = 1 ∧ (alu 0x8125 0 0xFF 9).readV 15 = 0 := by decide

/-- A17 and A18, in both modes. -/
theorem test_sub_vf :
    (subResult .latched 15 3 ((State.reset.writeV 15 0x10).writeV 3 1)).readV 15 = 0x0F ∧
    (subResult .sequential 15 3 ((State.reset.writeV 15 0x10).writeV 3 1)).readV 15 = 0 ∧
    (subResult .latched 3 15 ((State.reset.writeV 15 2).writeV 3 5)).readV 3 = 3 ∧
    (subResult .sequential 3 15 ((State.reset.writeV 15 2).writeV 3 5)).readV 3 = 4 ∧
    (subResult .latched 3 15 ((State.reset.writeV 15 2).writeV 3 5)).readV 15 = 1 := by decide

/-- A19 and A20; V5 is not read. -/
theorem test_shr :
    (after (((at200 0x8456).writeV 4 5).writeV 5 0x99)).readV 4 = 2 ∧
    (after (((at200 0x8456).writeV 4 5).writeV 5 0x99)).readV 15 = 1 ∧
    (after ((at200 0x8406).writeV 4 0xFF)).readV 4 = 0x7F := by decide

/-- A22, in both modes. -/
theorem test_shr_vf :
    (shrResult .latched 15 (State.reset.writeV 15 0x81)).readV 15 = 0x40 ∧
    (shrResult .sequential 15 (State.reset.writeV 15 0x81)).readV 15 = 0 := by decide

/-- A24: a mask of 0 gives 0 whatever is drawn. -/
theorem test_rnd_mask_zero : (after (at200 0xC000)).readV 0 = 0 := BitVec.and_zero

/-- The step draws once and goes on. -/
theorem test_rnd : (after (at200 0xC00F)).freeIndex = 1 ∧ (after (at200 0xC00F)).pc = 0x202 := by decide

/-- M1. -/
theorem test_ld_i : (after (at200 0xAFFF)).i = 0x0FFF := by decide

/-- M2 and M3. -/
theorem test_add_i :
    (after (((at200 0xF11E).setI 0x0FFF).writeV 1 1)).i = 0x1000 ∧
    (after (((at200 0xF11E).setI 0xFFFF).writeV 1 2)).i = 1 ∧
    (after (((at200 0xF11E).setI 0xFFFF).writeV 1 2)).readV 15 = 0 := by decide

/-- M5 and M6. -/
theorem test_ld_f :
    (after ((at200 0xF229).writeV 2 0x20)).i = 0xA0 ∧ (after ((at200 0xF229).writeV 2 0xFF)).i = 0x4FB := by decide

/-- M7 and M10: the digits, and the address that is out of bounds. -/
theorem test_ld_b :
    [0, 1, 2].map (fun k => (after (((at200 0xF533).setI 0x300).writeV 5 0x80)).mem.read (0x300 + k)) = [1, 2, 8] ∧
    (after (((at200 0xF533).setI 0xFFE).writeV 5 9)).statusPorts = ⟨true, 1, 3, 0x200, 0xF533, 0x1000⟩ := by decide

/-- M12 and M13: one byte only, and the address that is out of bounds. -/
theorem test_dump :
    (after ((((at200 0xF055).setI 0x300).writeV 0 0x77).writeV 1 0x88)).mem.read 0x300 = 0x77 ∧
    (after ((((at200 0xF055).setI 0x300).writeV 0 0x77).writeV 1 0x88)).mem.read 0x301 = 0 ∧
    (after ((at200 0xF355).setI 0xFFE)).statusPorts = ⟨true, 1, 3, 0x200, 0xF355, 0x1000⟩ := by decide

/-- M14 and M16: three registers, I kept, and the address that is out of bounds. -/
theorem test_load :
    [0, 1, 2, 3].map (fun r : Reg => (after ((poke 0x300 0x0A (poke 0x301 0x0B (poke 0x302 0x0C
      (poke 0x303 0x0D (at200 0xF265))))).setI 0x300)).readV r) = [0x0A, 0x0B, 0x0C, 0] ∧
    (after ((at200 0xF265).setI 0x300)).i = 0x300 ∧
    (after ((at200 0xF365).setI 0xFFE)).statusPorts = ⟨true, 1, 2, 0x200, 0xF365, 0x1000⟩ := by decide

/-- I, V0, V1 and one byte at I set, one step of a one-row draw. -/
def draw (w : Nat) (v0 v1 byte : Byte) (d : Display) : State :=
  after ((((poke 0x300 byte (at200 w)).setI 0x300).writeV 0 v0).writeV 1 v1 |>.setDisplay d)

/-- D1 and D8: the row wraps; a pixel that goes out is a collision. -/
theorem test_draw :
    ([60, 63, 0, 3].all fun x => (draw 0xD011 60 0 0xFF .blank).display.pixel x 0) = true ∧
    ([4, 59].any fun x => (draw 0xD011 60 0 0xFF .blank).display.pixel x 0) = false ∧
    (draw 0xD011 60 0 0xFF .blank).readV 15 = 0 ∧
    (draw 0xD011 0 0 0x60 ⟨Vector.replicate 32 2⟩).readV 15 = 1 ∧
    (draw 0xD011 0 0 0x60 ⟨Vector.replicate 32 2⟩).display.pixel 1 0 = false ∧
    (draw 0xD011 0 0 0x60 ⟨Vector.replicate 32 2⟩).display.pixel 2 0 = true := by decide

/-- D4, D7, D6: clipped rows, no row, and clipped rows that are read out of bounds. -/
theorem test_draw_edges :
    (draw 0xD011 0 40 0xFF .blank).display = .blank ∧
    (after ((at200 0xD010).writeV 15 0x55)).readV 15 = 0 ∧
    (after (((at200 0xD012).setI 0xFFF).writeV 1 0x40)).statusPorts =
      ⟨true, 1, 2, 0x200, 0xD012, 0x1000⟩ := by decide

/-- K1 and K3. -/
theorem test_skp :
    (after (((at200 0xE09E).setKey (some 5)).writeV 0 5)).pc = 0x204 ∧
    (after (((at200 0xE09E).setKey (some 5)).writeV 0 0x15)).pc = 0x202 := by decide

/-- K4 and K5. -/
theorem test_sknp :
    (after (at200 0xE0A1)).pc = 0x204 ∧ (after (((at200 0xE0A1).setKey (some 5)).writeV 0 5)).pc = 0x202 := by decide

/-- K10. -/
theorem test_ld_vx_dt : (after ((at200 0xF307).dtWrite 0x3C)).readV 3 = 0x3C := by decide

/-- K11. -/
theorem test_ld_dt_vx : (after ((at200 0xF315).writeV 3 0x3C)).dt = 0x3C := by decide

/-- K7 and K8. -/
theorem test_ld_k :
    after ((at200 0xF10A).writeV 1 0x33) = (at200 0xF10A).writeV 1 0x33 ∧
    (after ((at200 0xF10A).setKey (some 0xC))).readV 1 = 0x0C ∧
    (after ((at200 0xF10A).setKey (some 0xC))).key = none ∧
    (after ((at200 0xF10A).setKey (some 0xC))).pc = 0x202 := by decide

/-- W9 and K13. -/
theorem test_tick :
    (State.reset.dtWrite 3).tick.dt = 2 ∧ (State.reset.dtWrite 1).tick.dt = 0 ∧ State.reset.tick.dt = 0 := by decide

/-- H4, and a ROM of two bytes. -/
theorem test_load_rom :
    loadRom (List.replicate 3585 0) State.reset = .fault (.romLoadFailure 3585) ∧
    loadRom [0x00, 0xEE] State.reset = .next (at200 0x00EE) := by
  constructor
  · exact (if_neg (by rw [List.length_replicate]; decide)).trans
      (by rw [List.length_replicate])
  · rfl

/-! ### Witnesses: states and operands that meet the hypotheses of each statement -/

/-- StepRunsDecodedInstruction, at the usual PC and at the last one that can be fetched. -/
theorem witness_step :
    (∃ i, (at200 0x60FA).halted = false ∧ (at200 0x60FA).pc.toNat + 1 < 4096 ∧
      decode (wordOfBytes ((at200 0x60FA).mem.read (at200 0x60FA).pc.toNat)
        ((at200 0x60FA).mem.read ((at200 0x60FA).pc.toNat + 1))) = .ok i) ∧
    ((State.reset.setPc 0xFFE).withFetchWord 16 0x00E0).pc.toNat + 1 = 4095 ∧
    ((State.reset.setPc 0xFFE).withFetchWord 16 0x00E0).fetch = .ok 0x00E0 := by
  refine ⟨⟨.ldVxKk 0 0xFA, ?_⟩, ?_⟩ <;> decide

/-- FetchIsBigEndianAndBounded: each clause at the values where they meet. -/
theorem witness_fetch :
    (State.reset.setPc 0xFFE).pc.toNat + 1 < 4096 ∧
    4096 ≤ (State.reset.setPc 0xFFF).pc.toNat + 1 ∧ (State.reset.setPc 0xFFF).pc.toNat < 4096 ∧
    4096 ≤ (State.reset.setPc 0x1000).pc.toNat ∧ (State.reset.setPc 0x1000).halted = false := by decide

/-- UnknownWordIsFatal. -/
theorem witness_unknown :
    (at200 0x5120).halted = false ∧ (at200 0x5120).fetch = .ok 0x5120 ∧
    decode 0x5120 = .error .unknownOpcode := by decide

/-- HaltedUntilReset: a halted state, and the actions it may meet. -/
theorem witness_halted :
    (after (at200 0x5120)).halted = true ∧
    hostAct .tick (after (at200 0x5120)) = .next (after (at200 0x5120)).tick ∧
    (∀ p, HostAction.tick ≠ .reset p) ∧
    hostAct (.loadRom [1]) (after (at200 0x5120)) =
      .next ((after (at200 0x5120)).setMem ((after (at200 0x5120)).mem.store 0x200 [1])) := by
  refine ⟨by decide, rfl, fun p h => by simp at h, rfl⟩

/-- FatalRecordHoldsPcAndWord: a step that halts after its fetch, and one that halts at its fetch. -/
theorem witness_fatal :
    ((at200 0x00EE).halted = false ∧ step (at200 0x00EE) = .next (after (at200 0x00EE)) ∧
      (after (at200 0x00EE)).halted = true ∧ (at200 0x00EE).fetch = .ok 0x00EE) ∧
    step (State.reset.setPc 0xFFF) = .next (after (State.reset.setPc 0xFFF)) ∧
    (after (State.reset.setPc 0xFFF)).halted = true ∧ (State.reset.setPc 0xFFF).fetch = .error 0x1000 :=
  ⟨⟨by decide, rfl, by decide, by decide⟩, rfl, by decide, by decide⟩

/-- DecodeOfEncode, at the largest operands. -/
theorem witness_wellFormed :
    (Instr.jp 0xFFF).wellFormed = true ∧ (Instr.drwVxVyN 15 15 15).wellFormed = true ∧
    (Instr.ldVxKk 15 0xFF).wellFormed = true ∧ Instr.cls.wellFormed = true := by decide

/-- EncodeOfDecode. -/
theorem witness_decode :
    decode 0x8456 = .ok (.shrVx 4 5) ∧ decode 0xDFFF = .ok (.drwVxVyN 15 15 15) := by decide

/-- RomLoadIsVerbatim: the longest ROM that fits and the shortest that does not. -/
theorem witness_rom :
    State.reset.mem.wf = true ∧ (List.replicate 3584 (0x12 : Byte)).length ≤ 3584 ∧
    3584 < (List.replicate 3585 (0x12 : Byte)).length := by
  refine ⟨by decide, le_of_eq List.length_replicate, ?_⟩
  rw [List.length_replicate]
  decide

/-- StepsComeAfterTheLoad: sessions that keep the order. -/
theorem witness_session :
    legalSession .needsLoad ([.reset .zero, .loadRom [0x00, 0xE0], .tick] ++ .requestStep :: []) = true ∧
    legalSession .loaded
      (.requestStep :: ([.tick, .reset .zero] ++ .loadRom [] :: [])) = true := by decide

/-- CallPushesTheReturnAddress: the last free entry, and a full stack. -/
theorem witness_call :
    ({ State.reset with sp := 15 } : State).sp.val < 16 ∧ (full State.reset).sp.val = 16 := by decide

/-- ReturnPopsTheTopEntry: one entry, all entries, none. -/
theorem witness_ret :
    0 < (oneDeep State.reset).sp.val ∧ 0 < (full State.reset).sp.val ∧ State.reset.sp.val = 0 := by decide

/-- ReturnGoesAfterTheCall. -/
theorem witness_call_ret :
    ∃ t u : State, State.reset.sp.val < 16 ∧ exec (.call 0x300) State.reset = .next t ∧ u.sp = t.sp ∧
      u.stack = t.stack ∧ u.pc = 0x400 :=
  ⟨_, { (after (at200 0x2300)) with pc := 0x400 }, by decide, rfl, by decide, by decide, by decide⟩

/-- PcFollowsTheSummary: an instruction that goes on and one that halts. -/
theorem witness_pc :
    (∃ t, State.reset.halted = false ∧ exec (.jp 0x300) State.reset = .next t ∧ t.halted = false) ∧
    ∃ t, State.reset.halted = false ∧ exec .ret State.reset = .next t ∧ t.halted = true :=
  ⟨⟨_, rfl, rfl, rfl⟩, ⟨_, rfl, rfl, rfl⟩⟩

/-- SelfJumpParks. -/
theorem witness_self_jump :
    (at200 0x1200).halted = false ∧ (at200 0x1200).pc.toNat = (0x200 : Addr12).toNat ∧
    (at200 0x1200).fetch = .ok (encode (.jp 0x200)) := by decide

/-- The register clauses of AddWritesSumThenCarry, SubWritesNotBorrowThenDifference, ShiftWritesOldBitThenHalf
and VfAsOperandInBothSamplingModes. -/
theorem witness_registers : (14 : Reg) ≠ 15 ∧ (0 : Reg) ≠ 15 ∧ (15 : Reg) = 15 := by decide

/-- BcdStoresThreeDigits: the last I in bounds and the first beyond. -/
theorem witness_bcd :
    State.reset.mem.wf = true ∧ (State.reset.setI 0xFFD).i.toNat + 3 ≤ 4096 ∧
    4096 < (State.reset.setI 0xFFE).i.toNat + 3 ∧ 4096 < (State.reset.setI 0xFFFF).i.toNat + 3 := by decide

/-- DumpStoresTheRegisters, LoadFillsTheRegisters and LoadAfterDumpRestores: the last I in bounds and the first
beyond. -/
theorem witness_dump :
    (State.reset.setI 0xFF0).mem.wf = true ∧ (State.reset.setI 0xFF0).i.toNat + (15 : Reg).val < 4096 ∧
    4096 ≤ (State.reset.setI 0xFF1).i.toNat + (15 : Reg).val ∧
    (State.reset.setI 0xFFF).i.toNat + (0 : Reg).val < 4096 ∧
    4096 ≤ (State.reset.setI 0x1000).i.toNat + (0 : Reg).val := by decide

/-- LoadAfterDumpRestores. -/
theorem witness_dump_load :
    ∃ t u : State, (State.reset.setI 0xFF0).mem.wf = true ∧
      (State.reset.setI 0xFF0).i.toNat + (15 : Reg).val < 4096 ∧
      exec (.ldMemIVx 15) (State.reset.setI 0xFF0) = .next t ∧ u.mem = t.mem ∧ u.i = t.i ∧ u.readV 0 = 1 :=
  ⟨_, (State.reset.setI 0xFF0).writeV 0 1, by decide, by decide, rfl, by decide, by decide, by decide⟩

/-- StoredBytesAreFetched: the last I each store may have; a PC whose two bytes are stored by Fx55, one whose
second byte is the first one Fx33 stores, and one whose two bytes are the last ones it stores. -/
theorem witness_stored :
    ((State.reset.setI 0xFF0).mem.wf = true ∧ (State.reset.setI 0xFF0).i.toNat + (15 : Reg).val < 4096 ∧
      ∃ t u : State, exec (.ldMemIVx 15) (State.reset.setI 0xFF0) = .next t ∧ u.mem = t.mem ∧
        u.pc.toNat + 1 < 4096 ∧ (14 : Reg) ≤ 15 ∧ u.pc.toNat = 0xFF0 + (14 : Reg).val ∧
        u.pc.toNat + 1 = 0xFF0 + (15 : Reg).val) ∧
    ((State.reset.setI 0xFFD).i.toNat + 3 ≤ 4096 ∧
      ∃ t u r : State, exec (.ldBVx 0) (State.reset.setI 0xFFD) = .next t ∧ u.mem = t.mem ∧ r.mem = t.mem ∧
        u.pc.toNat + 1 < 4096 ∧ u.pc.toNat + 1 = 0xFFD + 0 ∧
        r.pc.toNat + 1 < 4096 ∧ r.pc.toNat = 0xFFD + 1 ∧ r.pc.toNat + 1 = 0xFFD + 2) :=
  ⟨⟨by decide, by decide, _, State.reset.setPc 0xFFE, rfl, by decide, by decide, by decide, by decide, by decide⟩,
    by decide, _, State.reset.setPc 0xFFC, State.reset.setPc 0xFFE, rfl, by decide, by decide, by decide,
    by decide, by decide, by decide, by decide⟩

/-- HostActionsHaveTheirEffects: an action that is followed by others. -/
theorem witness_host_sequence : hostAct .tick (State.reset.dtWrite 3) = .next (State.reset.dtWrite 2) := by rfl

/-- DrawXorsTheSprite: no row with I beyond memory, the last row in bounds, the first beyond. -/
theorem witness_draw :
    (0 : Fin 16).val = 0 ∧ (State.reset.setI 0xFFF).i.toNat + (1 : Fin 16).val ≤ 4096 ∧
    (2 : Fin 16).val ≠ 0 ∧ 4096 < (State.reset.setI 0xFFF).i.toNat + (2 : Fin 16).val ∧
    4096 < (State.reset.setI 0x1000).i.toNat + (1 : Fin 16).val := by decide

/-- DrawTwiceRestores. -/
theorem witness_draw_twice :
    (0 : Reg) ≠ 15 ∧ (1 : Reg) ≠ 15 ∧ (State.reset.setI 0xFF1).i.toNat + (15 : Fin 16).val ≤ 4096 := by decide

/-- WaitForKeyConsumesTheLatch. -/
theorem witness_key : State.reset.key = none ∧ (State.reset.setKey (some 0xF)).key = some 0xF := by decide

/-- WaitsWhileNoKeyIsLatched. -/
theorem witness_wait :
    (at200 0xF10A).halted = false ∧ (at200 0xF10A).key = none ∧
    (at200 0xF10A).fetch = .ok (encode (.ldVxK 1)) := by decide

/-- VfChangesOnlyAsFlagOrDestination. -/
theorem witness_vf :
    ∃ t, exec (.ldVxKk 15 1) State.reset = .next t ∧ t.readV 15 ≠ State.reset.readV 15 :=
  ⟨_, rfl, by decide⟩

/-- IndexChangesOnlyByItsWriters. -/
theorem witness_index : ∃ t, exec (.ldINnn 1) State.reset = .next t ∧ t.i ≠ State.reset.i :=
  ⟨_, rfl, by decide⟩

/-- BusAndStackChangeOnlyByTheirWriters: each part changed by an instruction. -/
theorem witness_parts :
    (∃ t, exec (.call 1) State.reset = .next t ∧ ¬ Part.stack.kept State.reset t) ∧
    (∃ t, exec (.ldBVx 0) (State.reset.writeV 0 7) = .next t ∧
      ¬ Part.memory.kept (State.reset.writeV 0 7) t) ∧
    (∃ t, exec .cls (State.reset.setDisplay ⟨Vector.replicate 32 1⟩) = .next t ∧
      ¬ Part.display.kept (State.reset.setDisplay ⟨Vector.replicate 32 1⟩) t) ∧
    (∃ t, exec (.ldDtVx 0) (State.reset.dtWrite 1) = .next t ∧ ¬ Part.timer.kept (State.reset.dtWrite 1) t) ∧
    ∃ t, exec (.ldVxK 0) (State.reset.setKey (some 1)) = .next t ∧
      ¬ Part.latch.kept (State.reset.setKey (some 1)) t :=
  ⟨⟨_, rfl, fun h => absurd h.1 (by decide)⟩, ⟨_, rfl, fun h => absurd (h 2) (by decide)⟩,
    ⟨_, rfl, fun h => absurd (h 0 0) (by decide)⟩,
    ⟨_, rfl, show (State.reset.dtWrite 1).readV 0 ≠ 1 by decide⟩,
    ⟨_, rfl, show (none : Option Key) ≠ some 1 by decide⟩⟩

/-- FatalErrorsOfInstructions: each instruction that can halt, halting. -/
theorem witness_fatal_errors :
    (∃ t, exec .ret State.reset = .next t ∧ t.halted = true) ∧
    (∃ t, exec (.call 1) (full State.reset) = .next t ∧ t.halted = true) ∧
    (∃ t, exec (.ldBVx 0) (State.reset.setI 0xFFE) = .next t ∧ t.halted = true) ∧
    (∃ t, exec (.ldMemIVx 1) (State.reset.setI 0xFFF) = .next t ∧ t.halted = true) ∧
    (∃ t, exec (.ldVxMemI 1) (State.reset.setI 0xFFF) = .next t ∧ t.halted = true) ∧
    ∃ t, exec (.drwVxVyN 0 1 2) (State.reset.setI 0xFFF) = .next t ∧ t.halted = true :=
  ⟨⟨_, rfl, by decide⟩, ⟨_, rfl, by decide⟩, ⟨_, rfl, by decide⟩, ⟨_, rfl, by decide⟩, ⟨_, rfl, by decide⟩,
    ⟨_, rfl, by decide⟩⟩

/-- ResetHasTheInvariant: the recommended image and one with a font byte. -/
theorem witness_reset_image :
    ResetParams.zero.mem.wf = true ∧ (⟨[(0, 0xF0), (1, 0x90)]⟩ : Memory).wf = true := by decide

/-- StepKeepsTheInvariant: a running state and a halted one, each with its step. -/
theorem witness_invariant :
    (State.reset.Inv ∧ step State.reset = .next (after State.reset)) ∧
    (after State.reset).Inv ∧ step (after State.reset) = .next (after State.reset) :=
  ⟨⟨⟨by decide, by decide⟩, rfl⟩, ⟨⟨by decide, by decide⟩, rfl⟩⟩

/-- HostActionsKeepTheInvariant: a reset to an image with a byte in it, and a load. -/
theorem witness_host_invariant :
    (State.reset.Inv ∧ hostAct (.loadRom [0x12]) State.reset =
      .next (State.reset.setMem (State.reset.mem.store 0x200 [0x12])) ∧
      ∀ p, HostAction.loadRom [0x12] = .reset p → p.mem.wf = true) ∧
    ∃ q : ResetParams, q.mem.cells = [(0, 0xF0)] ∧ (∀ p, HostAction.reset q = .reset p → p.mem.wf = true) ∧
      ∃ t, hostAct (.reset q) (after State.reset) = .next t :=
  ⟨⟨⟨by decide, by decide⟩, rfl, fun p h => by simp at h⟩,
    ⟨{ ResetParams.zero with mem := ⟨[(0, 0xF0)]⟩ }, rfl, fun p h => by cases h; rfl, _, rfl⟩⟩

/-- StepKeepsPcBounded: a return to the largest entry, and the largest PC. -/
theorem witness_pc_bounded :
    (∃ s : State, s.PcBounded ∧ s.sp = 1 ∧ s.stack[0] = 0x1000 ∧ step s = .next (after s)) ∧
    (State.reset.setPc 0x10FE).PcBounded := by
  refine ⟨⟨{ at200 0x00EE with sp := 1, stack := Vector.replicate 16 0x1000 }, ?_, by decide, by decide, ?_⟩, ?_⟩
  · exact ⟨by decide, by decide⟩
  · rfl
  · exact ⟨by decide, by decide⟩

/-- StaleStackEntriesAreUnobservable: two states that differ in an entry at SP, each with its step. -/
theorem witness_stale :
    ∃ s t : State, SameButStale s t ∧ s ≠ t ∧ step s = .next (after s) ∧ step t = .next (after t) :=
  ⟨at200 0x2400, { at200 0x2400 with stack := Vector.replicate 16 7 },
    ⟨by decide, by decide, rfl⟩, by decide, rfl, rfl⟩

/-- TimerAndLatchAreSeenOnlyByTheirInstructions. -/
theorem witness_timer_latch :
    (∃ t, exec .cls State.reset = .next t) ∧ (∀ x, Instr.cls ≠ .ldVxDt x) ∧ (∀ x, Instr.cls ≠ .ldDtVx x) ∧
    (∀ x, Instr.cls ≠ .skpVx x) ∧ (∀ x, Instr.cls ≠ .sknpVx x) ∧ ∀ x, Instr.cls ≠ .ldVxK x :=
  ⟨⟨_, rfl⟩, by decide, by decide, by decide, by decide, by decide⟩

end Sys2Proof.Tests
end

section
/-! PROOFS of the family 10_state: PC after every instruction (R26). The shared operations come first, one lemma
each saying what PC is when the operation goes on and when it halts; then the operand facts the table's rows need;
then one case an instruction. -/

namespace Sys2Proof.Machine

/-! ### PC after a state that goes on, and after one that halts -/

/-- After a state that goes on, only the rule of a running block is to be shown. -/
theorem pcRule_of_running {t : State} {kept rule : Prop} (ht : t.halted = false) (h : rule) :
    (t.halted = true → kept) ∧ (t.halted = false → rule) :=
  ⟨fun e => absurd (ht.symm.trans e) Bool.false_ne_true, fun _ => h⟩

/-- After a fatal error, only that PC was kept is to be shown. -/
theorem pcRule_of_halted {t : State} {kept rule : Prop} (ht : t.halted = true) (h : kept) :
    (t.halted = true → kept) ∧ (t.halted = false → rule) :=
  ⟨fun _ => h, fun e => absurd (e.symm.trans ht) Bool.false_ne_true⟩

/-- The rule of R26 for an instruction that never jumps: PC goes to the next instruction, and is kept when the
instruction ends in a fatal error. -/
def NextPcUnlessHalted (s t : State) : Prop :=
  (t.halted = true → t.pc = s.pc) ∧ (t.halted = false → t.pc = s.pc + 2)

/-- A store at I, whichever way it ends (R183, R184). -/
theorem storeAtI_nextPcUnlessHalted {s : State} (hs : s.halted = false) (w : Word) (bytes : List Byte) :
    NextPcUnlessHalted s (s.storeAtI w bytes) := by
  unfold State.storeAtI
  split
  · exact pcRule_of_running hs rfl
  · exact pcRule_of_halted rfl (by simp [State.failStore])

/-- A load from I, whichever way it ends (R185). -/
theorem loadAtI_nextPcUnlessHalted {s : State} (hs : s.halted = false) (w : Word) (x : Reg) :
    NextPcUnlessHalted s (s.loadAtI w x) := by
  unfold State.loadAtI
  split
  · exact pcRule_of_running hs rfl
  · exact pcRule_of_halted rfl (by simp)

/-- A draw, whichever way it ends (R203). -/
theorem finishDraw_nextPcUnlessHalted {s : State} (hs : s.halted = false) (run : DrawRun) (w : Word) :
    NextPcUnlessHalted s (s.finishDraw run w) := by
  unfold State.finishDraw
  split
  · exact pcRule_of_running hs rfl
  · exact pcRule_of_halted rfl (by simp)

/-! ### Operands of the table's rows -/

/-- The target of `Bnnn` is the unreduced sum: a 12-bit and an 8-bit value cannot wrap 16 bits (R126). -/
theorem zextAddr_add_zextByte_toNat (nnn : Addr12) (b : Byte) :
    (zextAddr nnn + zextByte b).toNat = nnn.toNat + b.toNat := by
  have hn := nnn.isLt
  have hb := b.isLt
  rw [BitVec.toNat_add, zextAddr_toNat, zextByte_toNat]
  omega

/-- A key is pressed when the latch holds a code of the same value as the byte (R225). -/
theorem pressed_iff (s : State) (b : Byte) :
    s.pressed b = true ↔ s.key.map BitVec.toNat = some b.toNat := by
  unfold State.pressed State.keyQuery
  cases s.key with
  | none => simp
  | some k => simp [← BitVec.toNat_inj]

/-! ### The instructions -/

/-- Settles O22: one case for each row of R26's table. Instructions that cannot halt are running after the step;
the others are RET, CALL and the users of memory at I, each split by whether it meets its fatal error. -/
theorem pcFollowsTheSummary : Obligations.PcFollowsTheSummary := by
  intro i s t hs h
  cases i with
  | jp nnn =>
    cases h
    exact pcRule_of_running hs (zextAddr_toNat nnn)
  | jpV0Nnn nnn =>
    cases h
    exact pcRule_of_running hs (zextAddr_add_zextByte_toNat nnn _)
  | call nnn =>
    simp only [exec, execCall] at h
    cases hp : s.push s.nextPc with
    | none =>
      rw [hp] at h
      cases h
      exact pcRule_of_halted rfl rfl
    | some u =>
      obtain ⟨_, rfl⟩ := push_spec hp
      rw [hp] at h
      cases h
      exact pcRule_of_running hs (zextAddr_toNat nnn)
  | ret =>
    simp only [exec, execRet] at h
    cases hp : s.pop with
    | none =>
      rw [hp] at h
      cases h
      exact pcRule_of_halted rfl rfl
    | some p =>
      obtain ⟨target, u⟩ := p
      obtain ⟨hpos, rfl, rfl⟩ := pop_spec hp
      rw [hp] at h
      cases h
      exact pcRule_of_running hs ⟨hpos, rfl⟩
  | seVxKk x kk | sneVxKk x kk | sneVxVy x y =>
    cases h
    exact pcRule_of_running hs (by simp)
  | skpVx x =>
    cases h
    exact pcRule_of_running hs (by simp only [skipIf_pc, pressed_iff])
  | sknpVx x =>
    cases h
    refine pcRule_of_running hs ?_
    simp only [skipIf_pc, ← pressed_iff]
    cases s.pressed (s.readV x) <;> rfl
  | ldVxK x =>
    simp only [exec, execLdVxK, State.keyQuery] at h
    cases hk : s.key with
    | none =>
      rw [hk] at h
      cases h
      exact pcRule_of_running hs rfl
    | some k =>
      rw [hk] at h
      cases h
      exact pcRule_of_running hs rfl
  | drwVxVyN x y n =>
    cases h
    exact finishDraw_nextPcUnlessHalted hs _ _
  | ldBVx x | ldMemIVx x =>
    cases h
    exact storeAtI_nextPcUnlessHalted hs _ _
  | ldVxMemI x =>
    cases h
    exact loadAtI_nextPcUnlessHalted hs _ x
  | cls | ldVxKk | addVxKk | ldVxVy | orVxVy | andVxVy | xorVxVy | addVxVy | subVxVy | shrVx | ldINnn | rndVxKk
  | ldVxDt | ldDtVx | addIVx | ldFVx =>
    cases h
    exact pcRule_of_running hs rfl

end Sys2Proof.Machine
end

section
/-! PROOFS of the family 20_memory: fetch is big-endian and checked against memory's end (R64). The address a failed
fetch records comes first, then the step of a failed fetch, then the statement. -/

namespace Sys2Proof.Machine

/-- The first of `a` and the end of memory that is out of bounds, as the record holds it (R61). -/
theorem ofNat_max_memSize (a : Word) :
    BitVec.ofNat 16 (max a.toNat memSize) = if a.toNat < 4096 then 0x1000 else a := by
  split
  · next h => rw [max_eq_right (le_of_lt h)]; rfl
  · next h => rw [max_eq_left (not_lt.1 h), BitVec.ofNat_toNat, BitVec.setWidth_eq]

/-- A running block whose fetch fails takes the fetch's fatal error. -/
theorem step_of_fetch_error {s : State} {a : Nat} (hs : s.halted = false) (hf : s.fetch = .error a) :
    step s = .next (s.fetchFault a) := by
  simp [step, hs, hf]

/-- A failed fetch is a fatal error with op FETCH, word 0 and the first address out of bounds (R240, R245). -/
theorem fetchFault_fatal (s : State) :
    FatalAt s (s.fetchFault (max s.pc.toNat memSize)) 1 1 0 (if s.pc.toNat < 4096 then 0x1000 else s.pc) := by
  refine ⟨?_, rfl⟩
  rw [← ofNat_max_memSize]
  rfl

/-- Settles O2: a fetch in bounds is the word of the two bytes at PC, and one that leaves memory is the fatal error
of the first address out of bounds. -/
theorem fetchIsBigEndianAndBounded : Obligations.FetchIsBigEndianAndBounded := by
  intro s
  constructor
  · intro hin
    exact ⟨_, fetch_ok.2 ⟨hin, rfl⟩, hi_word _ _, lo_word _ _⟩
  · intro hout hs
    have hf : s.fetch = .error (max s.pc.toNat memSize) := fetch_error.2 ⟨hout, rfl⟩
    exact ⟨_, step_of_fetch_error hs hf, fetchFault_fatal s, raiseFatal_keeps s _ 0⟩

end Sys2Proof.Machine
end

section
/-! PROOFS of the family 30_encoding: a step runs the instruction that the two bytes at PC decode to (R96). -/

namespace Sys2Proof.Machine

/-- A running block whose fetched word decodes is stepped by the instruction's meaning and nothing else. -/
theorem step_of_fetch_decode_ok {s : State} {w : Word} {i : Instr} (hs : s.halted = false)
    (hf : s.fetch = .ok w) (hd : decode w = .ok i) : step s = exec i s := by
  simp [step, hs, hf, hd]

/-- Settles O1: two bytes in bounds make the fetch succeed with their word, and the step runs what it decodes to. -/
theorem stepRunsDecodedInstruction : Obligations.StepRunsDecodedInstruction := by
  intro s i hs hin hd
  exact step_of_fetch_decode_ok hs (fetch_ok.2 ⟨hin, rfl⟩) hd

end Sys2Proof.Machine
end

section
/-! PROOFS of the family 40_control_flow: jumps, calls, returns and skips (R120 to R127), a jump to itself, and the
bound on PC (R28). What the control transfers do comes first, one equation for each way they end; then the bounds. -/

namespace Sys2Proof.Machine

/-! ### What a control transfer does -/

/-- Setting PC keeps everything else. -/
theorem setPc_keeps (s : State) (w : Word) : Keeps [] [] s (s.setPc w) := by
  refine ⟨fun p _ => ?_, fun _ _ => rfl⟩
  cases p <;> simp [Part.kept]

/-- A skip keeps everything but PC, whichever way its condition falls (R127). -/
theorem skipIf_keeps (s : State) (c : Bool) : Keeps [] [] s (s.skipIf c) := setPc_keeps s _

/-- Another stack and another PC keep everything else. -/
theorem setStack_setPc_keeps (s : State) (entries : Vector Word 16) (depth : Fin 17) (w : Word) :
    Keeps [.stack] [] s { s with stack := entries, sp := depth, pc := w } := by
  refine ⟨fun p hp => ?_, fun _ _ => rfl⟩
  cases p <;> simp_all [Part.kept]

/-- CALL with a free entry (R122). -/
theorem exec_call_of_lt {s : State} (nnn : Addr12) (hs : s.sp.val < 16) :
    exec (.call nnn) s =
      .next { s with stack := s.stack.set s.sp.val (s.pc + 2), sp := ⟨s.sp.val + 1, Nat.succ_lt_succ hs⟩,
                     pc := zextAddr nnn } := by
  simp only [exec, execCall, push_of_lt _ hs]
  rfl

/-- CALL on a full stack (R31). -/
theorem exec_call_of_full {s : State} (nnn : Addr12) (hs : s.sp.val = 16) :
    exec (.call nnn) s = .next (s.raiseFatal (.outOfBounds .push 16) (encode (.call nnn))) := by
  simp only [exec, execCall, push_full.2 hs, hs]

/-- RET with an entry on the stack (R120). -/
theorem exec_ret_of_pos {s : State} (hs : 0 < s.sp.val) :
    exec .ret s =
      .next { s with sp := ⟨s.sp.val - 1, by omega⟩, pc := s.stack[s.sp.val - 1]'(by omega) } := by
  simp only [exec, execRet, pop_of_pos hs]
  rfl

/-- RET on an empty stack (R32). -/
theorem exec_ret_of_empty {s : State} (hs : s.sp.val = 0) :
    exec .ret s = .next (s.raiseFatal .stackUnderflow (encode .ret)) := by
  simp only [exec, execRet, pop_empty.2 hs]

/-! ### The control transfers -/

/-- Settles O17: both jumps only set PC, and the sum of JP V0 cannot wrap 16 bits. -/
theorem jumpsSetPc : Obligations.JumpsSetPc := by
  intro nnn s
  exact ⟨⟨_, rfl, zextAddr_toNat nnn, setPc_keeps s _⟩,
    ⟨_, rfl, zextAddr_add_zextByte_toNat nnn _, setPc_keeps s _⟩⟩

/-- Settles O18: the two ways a CALL ends, by whether SP is 16. -/
theorem callPushesTheReturnAddress : Obligations.CallPushesTheReturnAddress := by
  intro nnn s
  constructor
  · intro hs
    refine ⟨_, exec_call_of_lt nnn hs, zextAddr_toNat nnn, rfl, ?_, ?_, setStack_setPc_keeps s _ _ _⟩
    · exact Vector.getElem_set_self hs
    · intro k hk
      exact Vector.getElem_set_ne hs k.isLt hk.symm
  · intro hs
    exact ⟨_, exec_call_of_full nnn hs, ⟨rfl, rfl⟩, raiseFatal_keeps s _ _⟩

/-- Settles O19: the two ways a RET ends, by whether SP is 0. -/
theorem returnPopsTheTopEntry : Obligations.ReturnPopsTheTopEntry := by
  intro s
  constructor
  · intro hs
    exact ⟨_, exec_ret_of_pos hs, rfl, rfl, fun _ => rfl, setStack_setPc_keeps s s.stack _ _⟩
  · intro hs
    exact ⟨_, exec_ret_of_empty hs, ⟨rfl, rfl⟩, raiseFatal_keeps s _ _⟩

/-- Settles O21: each skip is `skipIf` on its condition. -/
theorem registerSkips : Obligations.RegisterSkips := by
  intro x y kk s
  refine ⟨⟨_, rfl, ?_, skipIf_keeps s _⟩, ⟨_, rfl, ?_, skipIf_keeps s _⟩, ⟨_, rfl, ?_, skipIf_keeps s _⟩⟩
  all_goals simp

/-! ### A jump to itself -/

/-- The word of a jump decodes to the jump (R92, R94). -/
theorem decode_encode_jp (nnn : Addr12) : decode (encode (.jp nnn)) = .ok (.jp nnn) := by
  simp [decode, encode, op_nnn, nnn_nnn]

/-- A running block at a jump to its own PC steps to the state it is in. -/
theorem step_of_self_jump {s : State} {nnn : Addr12} (hs : s.halted = false) (hpc : s.pc.toNat = nnn.toNat)
    (hf : s.fetch = .ok (encode (.jp nnn))) : step s = .next s := by
  have htarget : zextAddr nnn = s.pc := BitVec.eq_of_toNat_eq ((zextAddr_toNat nnn).trans hpc.symm)
  calc step s
      _ = exec (.jp nnn) s := step_of_fetch_decode_ok hs hf (decode_encode_jp nnn)
      _ = .next (s.setPc (zextAddr nnn)) := rfl
      _ = .next s := by rw [htarget]; rfl

/-- Settles O23: the state steps to itself, so every run from it ends in it, running. -/
theorem selfJumpParks : Obligations.SelfJumpParks := by
  intro s nnn hs hpc hf n
  have hstep := step_of_self_jump hs hpc hf
  exact ⟨core_run_of_step_self hstep n, fun k _ => ⟨s, core_run_of_step_self hstep k, hs⟩⟩

/-! ### The bound on PC (R28) -/

/-- The part of `State.PcBounded` that speaks of the stack: every valid entry is at most 0x1000. -/
def State.EntriesBounded (s : State) : Prop :=
  ∀ k : Fin 16, k.val < s.sp.val → s.stack[k.val].toNat ≤ 0x1000

theorem pcBounded_iff {s : State} : s.PcBounded ↔ s.pc.toNat ≤ 0x10FE ∧ s.EntriesBounded := Iff.rfl

/-- A state with the stack of a bounded one is bounded. -/
theorem entriesBounded_of_kept {s t : State} (h : Part.stack.kept s t) (hs : s.EntriesBounded) :
    t.EntriesBounded := by
  obtain ⟨hsp, hentries⟩ := h
  intro k hk
  rw [hentries k]
  exact hs k (by rwa [← hsp])

/-- A fatal error keeps PC and the stack, so it keeps the bound. -/
theorem raiseFatal_pcBounded {s : State} (hs : s.PcBounded) (c : FatalCause) (w : Word) :
    (s.raiseFatal c w).PcBounded := hs

/-- Only CALL and RET change the stack (R29). -/
theorem exec_keeps_stack {i : Instr} {s t : State} (hcall : ∀ nnn, i ≠ .call nnn) (hret : i ≠ .ret)
    (h : exec i s = .next t) : Part.stack.kept s t := by
  cases i with
  | call nnn => exact absurd rfl (hcall nnn)
  | ret => exact absurd rfl hret
  | ldVxK x =>
    simp only [exec, execLdVxK] at h
    split at h
    · cases h
      exact kept_refl _ _
    · cases h
      exact ⟨rfl, fun _ => rfl⟩
  | drwVxVyN x y n =>
    cases h
    exact (finishDraw_keeps s _ _).1 .stack (by decide)
  | ldBVx x | ldMemIVx x =>
    cases h
    exact (storeAtI_keeps s _ _).1 .stack (by decide)
  | ldVxMemI x =>
    cases h
    exact (loadAtI_keeps s _ x).1 .stack (by decide) (by decide)
  | cls | jp | seVxKk | sneVxKk | ldVxKk | addVxKk | ldVxVy | orVxVy | andVxVy | xorVxVy | addVxVy | subVxVy | shrVx
  | sneVxVy | ldINnn | jpV0Nnn | rndVxKk | skpVx | sknpVx | ldVxDt | ldDtVx | addIVx | ldFVx =>
    cases h
    exact ⟨rfl, fun _ => rfl⟩

/-- CALL keeps the bound on the entries: the one it adds is the address after a fetched instruction. -/
theorem exec_call_entriesBounded {nnn : Addr12} {s t : State} (hpc : s.pc.toNat + 1 < memSize)
    (hs : s.EntriesBounded) (h : exec (.call nnn) s = .next t) : t.EntriesBounded := by
  by_cases hfree : s.sp.val < 16
  · rw [exec_call_of_lt nnn hfree] at h
    cases h
    intro k hk
    by_cases htop : k.val = s.sp.val
    · have hnext : (s.pc + 2).toNat ≤ 0x1000 := by
        simp only [memSize] at hpc
        bv_omega
      simpa [htop] using hnext
    · have hold : k.val < s.sp.val := by
        simp only at hk
        omega
      simpa [Vector.getElem_set_ne _ _ (Ne.symm htop)] using hs k hold
  · rw [exec_call_of_full nnn (by omega)] at h
    cases h
    exact hs

/-- RET keeps the bound on the entries: those still valid were valid before. -/
theorem exec_ret_entriesBounded {s t : State} (hs : s.EntriesBounded) (h : exec .ret s = .next t) :
    t.EntriesBounded := by
  by_cases hempty : s.sp.val = 0
  · rw [exec_ret_of_empty hempty] at h
    cases h
    exact hs
  · rw [exec_ret_of_pos (Nat.pos_of_ne_zero hempty)] at h
    cases h
    exact fun k hk => hs k (Nat.lt_of_lt_of_le hk (Nat.sub_le _ _))

/-- An instruction that was fetched keeps the bound on the entries. -/
theorem exec_entriesBounded {i : Instr} {s t : State} (hpc : s.pc.toNat + 1 < memSize) (hs : s.EntriesBounded)
    (h : exec i s = .next t) : t.EntriesBounded := by
  by_cases hcall : ∃ nnn, i = .call nnn
  · obtain ⟨nnn, rfl⟩ := hcall
    exact exec_call_entriesBounded hpc hs h
  · by_cases hret : i = .ret
    · subst hret
      exact exec_ret_entriesBounded hs h
    · exact entriesBounded_of_kept (exec_keeps_stack (not_exists.1 hcall) hret h) hs

/-- An instruction that was fetched leaves PC at most 0x10FE, the target of `Bnnn` being the largest (R26, R126). -/
theorem exec_pc_le {i : Instr} {s t : State} (hrun : s.halted = false) (hpc : s.pc.toNat + 1 < memSize)
    (hs : s.EntriesBounded) (h : exec i s = .next t) : t.pc.toNat ≤ 0x10FE := by
  simp only [memSize] at hpc
  have hnext : (s.pc + 2).toNat ≤ 0x10FE := by bv_omega
  have hskip : (s.pc + 4).toNat ≤ 0x10FE := by bv_omega
  obtain ⟨hfatal, hgoes⟩ := pcFollowsTheSummary i s t hrun h
  cases ht : t.halted with
  | true =>
    rw [hfatal ht]
    omega
  | false =>
    replace hgoes := hgoes ht
    cases i with
    | jp nnn | call nnn =>
      have := nnn.isLt
      simp only at hgoes
      omega
    | jpV0Nnn nnn =>
      have := nnn.isLt
      have := (s.readV 0).isLt
      simp only at hgoes
      omega
    | ret =>
      obtain ⟨hpos, htop⟩ := hgoes
      have := hs ⟨s.sp.val - 1, by omega⟩ (Nat.sub_lt hpos Nat.one_pos)
      rw [htop]
      exact this.trans (by decide)
    | seVxKk | sneVxKk | sneVxVy | skpVx | sknpVx | ldVxK =>
      rw [hgoes]
      split <;> omega
    | cls | ldVxKk | addVxKk | ldVxVy | orVxVy | andVxVy | xorVxVy | addVxVy | subVxVy | shrVx | ldINnn | rndVxKk
    | drwVxVyN | ldVxDt | ldDtVx | addIVx | ldFVx | ldBVx | ldMemIVx | ldVxMemI =>
      rw [hgoes]
      exact hnext

/-- Settles O52: one case for each shape of a step; only an instruction that was fetched moves PC or the stack. -/
theorem stepKeepsPcBounded : Obligations.StepKeepsPcBounded := by
  intro s t hs h
  rcases step_cases s with ⟨_, hstep⟩ | ⟨_, a, _, hstep⟩ | ⟨_, w, e, _, _, hstep⟩ | ⟨hrun, w, i, hf, _, hstep⟩ <;>
    rw [hstep] at h
  · cases h
    exact hs
  · cases h
    exact raiseFatal_pcBounded hs _ _
  · cases h
    exact raiseFatal_pcBounded hs _ _
  · obtain ⟨hpc, _⟩ := fetch_ok.1 hf
    obtain ⟨_, hentries⟩ := pcBounded_iff.1 hs
    exact pcBounded_iff.2 ⟨exec_pc_le hrun hpc hentries h, exec_entriesBounded hpc hentries h⟩

end Sys2Proof.Machine
end

section
/-! PROOFS of the family 41_alu: loads, sums, bitwise operations and the random byte (R150 to R156, R159). The frames
of a register write, a flag write and a draw of a free value come first; every instruction here is a sequence of these
that ends by going to the next PC. -/

namespace Sys2Proof.Machine

/-! ### Frames of what these instructions are made of -/

/-- A frame that lists more parts and registers claims less. -/
theorem keeps_mono {ps qs : List Part} {rs us : List Reg} {s t : State} (h : Keeps ps rs s t) (hp : ps ⊆ qs)
    (hr : rs ⊆ us) : Keeps qs us s t := by
  obtain ⟨hparts, hregs⟩ := h
  exact ⟨fun p hpn => hparts p fun hps => hpn (hp hps), fun r hrn => hregs r fun hrs => hrn (hr hrs)⟩

/-- Writing a register keeps everything else (R9). -/
theorem writeV_keeps (s : State) (r : Reg) (b : Byte) : Keeps [] [r] s (s.writeV r b) := by
  refine ⟨fun p _ => ?_, fun q hq => writeV_readV_other s b (List.ne_of_not_mem_cons hq)⟩
  cases p <;> simp [Part.kept]

/-- Writing VF as a flag keeps everything else (R22). -/
theorem setFlag_keeps (s : State) (f : Bool) : Keeps [] [15] s (s.setFlag f) := writeV_keeps s vF _

/-- Taking a free value moves the model's counter alone (log 4). -/
theorem tookFree_keeps (s : State) : Keeps [.free] [] s s.tookFree := by
  refine ⟨fun p hp => ?_, fun _ _ => rfl⟩
  cases p <;> simp_all [Part.kept]

/-- Going to the next instruction does not widen a frame. -/
theorem advance_keeps {ps : List Part} {rs : List Reg} {s t : State} (h : Keeps ps rs s t) :
    Keeps ps rs s t.advance :=
  keeps_trans h (keeps_mono (setPc_keeps t _) (List.nil_subset _) (List.nil_subset _))

/-- The frame of an instruction that writes one register. -/
theorem writeV_advance_keeps (s : State) (x : Reg) (b : Byte) : Keeps [] [x] s (s.writeV x b).advance :=
  advance_keeps (writeV_keeps s x b)

/-- The frame of an instruction that writes one register and then VF. -/
theorem writeV_setFlag_advance_keeps (s : State) (x : Reg) (b : Byte) (f : Bool) :
    Keeps [] [x, 15] s ((s.writeV x b).setFlag f).advance :=
  advance_keeps (keeps_trans (keeps_mono (writeV_keeps s x b) (List.nil_subset _) (by simp))
    (keeps_mono (setFlag_keeps _ f) (List.nil_subset _) (by simp)))

/-- The frame of an instruction that draws one free value and writes one register. -/
theorem writeV_tookFree_advance_keeps (s : State) (x : Reg) (b : Byte) :
    Keeps [.free] [x] s ((s.writeV x b).tookFree).advance :=
  advance_keeps (keeps_trans (keeps_mono (writeV_keeps s x b) (List.nil_subset _) (List.Subset.refl _))
    (keeps_mono (tookFree_keeps _) (List.Subset.refl _) (List.nil_subset _)))

/-! ### The sum with carry -/

/-- The carry as VF holds it: 1 exactly when the sum is above 255 (R156). -/
theorem flagByte_carryOf_toNat (a b : Byte) :
    (flagByte (carryOf a b)).toNat = if 255 < a.toNat + b.toNat then 1 else 0 := by
  rw [flagByte_toNat, carryOf]
  simp only [decide_eq_true_eq]

/-- Settles O26: VF is written after Vx, so the write of VF leaves the sum in Vx unless Vx is VF, and the carry of the
old operands stands in VF in either case. -/
theorem addWritesSumThenCarry : Obligations.AddWritesSumThenCarry := by
  intro x y s
  refine ⟨_, rfl, fun hx => ?_, ?_, rfl, writeV_setFlag_advance_keeps s x _ _⟩
  · rw [advance_readV, setFlag_readV_other _ _ hx, writeV_readV_same, BitVec.toNat_add]
  · rw [advance_readV, setFlag_readV_vF, flagByte_carryOf_toNat]

/-! ### The instructions that write Vx alone -/

/-- Settles O24: each of the three writes its value to Vx and goes on. -/
theorem loadAddAndCopyWriteVx : Obligations.LoadAddAndCopyWriteVx := by
  intro x y kk s
  refine ⟨⟨_, rfl, ?_, rfl, writeV_advance_keeps s x _⟩, ⟨_, rfl, ?_, rfl, writeV_advance_keeps s x _⟩,
    ⟨_, rfl, ?_, rfl, writeV_advance_keeps s x _⟩⟩
  · rw [advance_readV, writeV_readV_same]
  · rw [advance_readV, writeV_readV_same, BitVec.toNat_add]
  · rw [advance_readV, writeV_readV_same]

/-- Settles O25: each of the three writes its value to Vx and goes on; a bit of the value is the operation on the
operands' bits. -/
theorem bitwiseInstructionsWriteVx : Obligations.BitwiseInstructionsWriteVx := by
  intro x y s
  refine ⟨⟨_, rfl, fun b => ?_, rfl, writeV_advance_keeps s x _⟩,
    ⟨_, rfl, fun b => ?_, rfl, writeV_advance_keeps s x _⟩,
    ⟨_, rfl, fun b => ?_, rfl, writeV_advance_keeps s x _⟩⟩
  · rw [advance_readV, writeV_readV_same, BitVec.getLsbD_or]
  · rw [advance_readV, writeV_readV_same, BitVec.getLsbD_and]
  · rw [advance_readV, writeV_readV_same, BitVec.getLsbD_xor]

/-! ### The random byte -/

/-- Settles O30: the byte written is the draw of the model's counter, masked, and the counter then goes up. -/
theorem randomByteIsMasked : Obligations.RandomByteIsMasked := by
  intro x kk s
  refine ⟨_, rfl, fun b => ?_, rfl, rfl, writeV_tookFree_advance_keeps s x _⟩
  rw [advance_readV, tookFree_readV, writeV_readV_same, BitVec.getLsbD_and, State.rndValue]

end Sys2Proof.Machine
end

section
/-! PROOFS of the family 42_index_memory: the writes of I and the transfers between registers and memory at I (R180 to
R185). Frames and operand facts come first; then what a store and a load at I do when they meet an address out of
bounds, beside the model's laws for the other case; then the statements. -/

namespace Sys2Proof.Machine

/-! ### Frames and operands -/

/-- Writing I keeps everything else (R24). -/
theorem setI_keeps (s : State) (w : Word) : Keeps [.index] [] s (s.setI w) := by
  refine ⟨fun p hp => ?_, fun _ _ => rfl⟩
  cases p <;> simp_all [Part.kept]

/-- The frame of an instruction that writes I alone. -/
theorem setI_advance_keeps (s : State) (w : Word) : Keeps [.index] [] s (s.setI w).advance :=
  advance_keeps (setI_keeps s w)

/-- Putting the registers in place keeps every part beside them. -/
theorem setV_advance_kept (s : State) (w : Vector Byte 16) (p : Part) : p.kept s (s.setV w).advance := by
  cases p <;> simp [Part.kept]

/-- The font address of a byte does not wrap 16 bits (R182). -/
theorem fontAddr_toNat (b : Byte) : (fontAddr b).toNat = b.toNat * 5 := by
  have := b.isLt
  simp only [fontAddr, fontGlyphBytes, BitVec.toNat_ofNat]
  omega

/-- The bytes of `Fx33` are the hundreds, the tens and the ones: each fits a byte (R183). -/
theorem bcdBytes_toNat (b : Byte) :
    (bcdBytes b)[0].toNat = b.toNat / 100 ∧ (bcdBytes b)[1].toNat = b.toNat / 10 % 10 ∧
      (bcdBytes b)[2].toNat = b.toNat % 10 := by
  have := b.isLt
  simp only [bcdBytes, List.getElem_cons_zero, List.getElem_cons_succ, BitVec.toNat_ofNat]
  omega

/-! ### Stores and loads that meet an address out of bounds -/

/-- Everything a store at I does when one of its addresses is out of bounds. -/
theorem storeAtI_fails {s : State} (hw : s.mem.wf = true) (w : Word) {bytes : List Byte} (hl : bytes.length ≠ 0)
    (h : 4096 < s.i.toNat + bytes.length) :
    FatalAt s (s.storeAtI w bytes) 1 3 w s.badAtI ∧
      (∀ k (hk : k < bytes.length), (s.storeAtI w bytes).mem.read (s.i.toNat + k) = s.mem.read (s.i.toNat + k) ∨
        (s.storeAtI w bytes).mem.read (s.i.toNat + k) = bytes[k]) ∧
      KeepsMemoryOutside s.i.toNat (4096 - s.i.toNat) s (s.storeAtI w bytes) ∧
      Keeps [.memory, .status, .free] [] s (s.storeAtI w bytes) := by
  rw [storeAtI_outOfBounds w hl h]
  exact ⟨failStore_fatal s w bytes, fun _ hk => failStore_read hw w bytes hk, failStore_outside s w bytes,
    failStore_keeps s w bytes _⟩

/-- A load from I with every address in bounds fills the registers up to Vx (R185). -/
theorem loadAtI_readV_inBounds {s : State} (w : Word) {x : Reg} (h : s.i.toNat + x.val < 4096) (k : Reg) :
    (s.loadAtI w x).readV k = if k ≤ x then s.mem.read (s.i.toNat + k.val) else s.readV k := by
  rw [loadAtI_inBounds w h, advance_readV, setV_readV, loadedRegs_getElem]
  simp only [Nat.lt_succ_iff, Fin.le_def, and_true]

/-- A load from I that meets an address out of bounds is a fatal error with op READ (R185). -/
theorem loadAtI_fatal {s : State} (w : Word) {x : Reg} (h : 4096 ≤ s.i.toNat + x.val) :
    FatalAt s (s.loadAtI w x) 1 2 w s.badAtI := by
  rw [loadAtI_outOfBounds w h, ← badAtI_eq]
  exact ⟨rfl, rfl⟩

/-- After a failing load each register is old, or its byte was in bounds and it holds that byte (R246). -/
theorem loadAtI_readV_outOfBounds {s : State} (w : Word) {x : Reg} (h : 4096 ≤ s.i.toNat + x.val) (k : Reg) :
    (s.loadAtI w x).readV k = s.readV k ∨
      (s.i.toNat + k.val < 4096 ∧ (s.loadAtI w x).readV k = s.mem.read (s.i.toNat + k.val)) := by
  rw [loadAtI_outOfBounds w h, raiseFatal_readV, tookFree_readV, setV_readV, loadedRegs_getElem]
  split
  · next hloaded =>
    obtain ⟨hbefore, _⟩ := hloaded
    simp only [memSize] at hbefore
    exact Or.inr ⟨by omega, rfl⟩
  · exact Or.inl rfl

/-! ### The instructions -/

/-- Settles O31: each of the three writes its value to I and goes on. -/
theorem indexInstructionsWriteI : Obligations.IndexInstructionsWriteI := by
  intro nnn x s
  refine ⟨⟨_, rfl, ?_, rfl, setI_advance_keeps s _⟩, ⟨_, rfl, ?_, rfl, setI_advance_keeps s _⟩,
    ⟨_, rfl, ?_, rfl, setI_advance_keeps s _⟩⟩
  · rw [advance_i, setI_i, zextAddr_toNat]
  · rw [advance_i, setI_i, BitVec.toNat_add, zextByte_toNat]
  · rw [advance_i, setI_i, fontAddr_toNat]

/-- Settles O32: a store at I of three bytes, whose values are the digits. -/
theorem bcdStoresThreeDigits : Obligations.BcdStoresThreeDigits := by
  intro x s hw
  constructor
  · intro hin
    obtain ⟨hread, houtside, hpc, hkeeps⟩ := storeAtI_ok hw (encode (.ldBVx x)) (bytes := bcdBytes (s.readV x)) hin
    obtain ⟨hhundreds, htens, hones⟩ := bcdBytes_toNat (s.readV x)
    refine ⟨_, rfl, ?_, ?_, ?_, houtside, hpc, hkeeps⟩
    · exact (congrArg BitVec.toNat (hread 0 (by simp))).trans hhundreds
    · exact (congrArg BitVec.toNat (hread 1 (by simp))).trans htens
    · exact (congrArg BitVec.toNat (hread 2 (by simp))).trans hones
  · intro hout
    exact ⟨_, rfl, storeAtI_fails hw _ (by simp) hout⟩

/-- Settles O33: a store at I of the registers up to Vx, the byte at offset `k` being Vk. -/
theorem dumpStoresTheRegisters : Obligations.DumpStoresTheRegisters := by
  intro x s hw
  have hlen := dumpBytes_length s x
  have hreg (k : Reg) (hk : k ≤ x) : ∃ h : k.val < (s.dumpBytes x).length, (s.dumpBytes x)[k.val] = s.readV k :=
    ⟨by rw [hlen]; exact Nat.lt_succ_of_le hk, dumpBytes_getElem s x k.val _⟩
  constructor
  · intro hin
    obtain ⟨hread, houtside, hpc, hkeeps⟩ :=
      storeAtI_ok hw (encode (.ldMemIVx x)) (bytes := s.dumpBytes x) (by omega)
    refine ⟨_, rfl, fun k hk => ?_, by rwa [hlen] at houtside, hpc, hkeeps⟩
    obtain ⟨h, hbyte⟩ := hreg k hk
    exact (hread k.val h).trans hbyte
  · intro hout
    obtain ⟨hfatal, hread, houtside, hkeeps⟩ :=
      storeAtI_fails hw (encode (.ldMemIVx x)) (bytes := s.dumpBytes x) (by omega) (by omega)
    refine ⟨_, rfl, hfatal, fun k hk => ?_, houtside, hkeeps⟩
    obtain ⟨h, hbyte⟩ := hreg k hk
    exact hbyte ▸ hread k.val h

/-- Settles O34: the two ways a load from I ends, by whether I + x is in bounds. -/
theorem loadFillsTheRegisters : Obligations.LoadFillsTheRegisters := by
  intro x s
  constructor
  · intro hin
    have hload := loadAtI_inBounds (encode (.ldVxMemI x)) hin
    refine ⟨_, rfl, loadAtI_readV_inBounds _ hin, ?_, fun p => ?_⟩
    · rw [hload, advance_pc, setV_pc]
    · rw [hload]
      exact setV_advance_kept s _ p
  · intro hout
    obtain ⟨hkept, _⟩ := loadAtI_keeps s (encode (.ldVxMemI x)) x
    exact ⟨_, rfl, loadAtI_fatal _ hout, loadAtI_readV_outOfBounds _ hout, hkept⟩

end Sys2Proof.Machine
end

section
/-! PROOFS of the family 43_display: the clearing of the display and the drawing of a sprite (R200 to R203). What a
draw does when one of its rows is out of bounds comes first, beside the model's laws for the other case. -/

namespace Sys2Proof.Machine

/-! ### Putting a display in place -/

/-- Putting a display in place keeps everything else (R38). -/
theorem setDisplay_keeps (s : State) (d : Display) : Keeps [.display] [] s (s.setDisplay d) := by
  refine ⟨fun p hp => ?_, fun _ _ => rfl⟩
  cases p <;> simp_all [Part.kept]

/-- Settles O37: the cleared display is put in place, and the instruction goes on. -/
theorem clearZeroesEveryPixel : Obligations.ClearZeroesEveryPixel := by
  intro s
  exact ⟨_, rfl, pixel_clear s.display, rfl, advance_keeps (setDisplay_keeps s _)⟩

/-! ### A draw that meets an address out of bounds -/

/-- A nonempty range that ends beyond 4096 has a first address out of bounds: its start, or 4096 (R61). -/
theorem firstOutOfBounds_of_exceeds {a count : Nat} (hc : count ≠ 0) (h : 4096 < a + count) :
    firstOutOfBounds a count = some (max a memSize) := by
  cases hb : firstOutOfBounds a count with
  | none =>
    have := firstOutOfBounds_eq_none.1 hb
    simp only [memSize] at this
    omega
  | some bad => rw [(firstOutOfBounds_eq_some hb).1]

/-- The display made by the rows before the address out of bounds: the sprite of those rows, XORed in (R203). When I
itself is beyond memory there are none. -/
theorem drawFrom_pixel_outOfBounds {x y : Reg} {n : Fin 16} {s : State}
    (hf : (drawFrom x y n s).failedAt = some (max s.i.toNat memSize)) (px py : Nat) (hy : py < 32) :
    (drawFrom x y n s).display.pixel px py = (s.display.pixel px py !=
      spriteCovers s.mem s.i.toNat (s.readV x).toNat (s.readV y).toNat (4096 - s.i.toNat) px py) := by
  have hrows : max s.i.toNat memSize - s.i.toNat = 4096 - s.i.toNat := by
    simp only [memSize]
    omega
  unfold drawFrom at hf ⊢
  rw [drawRows_display_of_failed hf, hrows]
  rcases Nat.le_total s.i.toNat 4096 with hin | hbeyond
  · exact drawRows_pixel _ _ _ _ _ _ _ _ _ (Nat.add_sub_cancel' hin).le hy
  · simp [Nat.sub_eq_zero_of_le hbeyond, drawRows]

/-- A failing draw blends the display it had made with the old one and raises OutOfBounds with op READ (R203, R246). -/
theorem finishDraw_of_failedAt {s : State} {run : DrawRun} {bad : Nat} (w : Word) (h : run.failedAt = some bad) :
    s.finishDraw run w =
      ((s.setDisplay (Display.blend (Config.partialPixels s.freeIndex) s.display run.display)).tookFree).raiseFatal
        (.outOfBounds .read bad) w := by
  unfold State.finishDraw
  rw [h]

/-- A failing draw keeps the registers, VF included, and every part but the display, the status and the model's
counter. -/
theorem finishDraw_keeps_of_failedAt {s : State} {run : DrawRun} {bad : Nat} (w : Word)
    (h : run.failedAt = some bad) : Keeps [.display, .status, .free] [] s (s.finishDraw run w) := by
  rw [finishDraw_of_failedAt w h]
  exact keeps_trans (keeps_mono (setDisplay_keeps s _) (by simp) (List.Subset.refl _))
    (keeps_trans (keeps_mono (tookFree_keeps _) (by simp) (List.Subset.refl _))
      (keeps_mono (raiseFatal_keeps _ _ w) (by simp) (List.Subset.refl _)))

/-- After a failing draw each pixel is old, or what the rows before the failure made it (R246). -/
theorem finishDraw_pixel_of_failedAt {s : State} {run : DrawRun} {bad : Nat} (w : Word)
    (h : run.failedAt = some bad) (px py : Nat) :
    (s.finishDraw run w).display.pixel px py = s.display.pixel px py ∨
      (s.finishDraw run w).display.pixel px py = run.display.pixel px py := by
  rw [finishDraw_of_failedAt w h, raiseFatal_display, tookFree_display, setDisplay_display, pixel_blend]
  split
  · exact Or.inr rfl
  · exact Or.inl rfl

/-- Raising OutOfBounds is a fatal error of kind 1 with the operation and the address given (R240, R245). -/
theorem raiseFatal_outOfBounds_fatal (s : State) (op : ErrOp) (a : Nat) (w : Word) :
    FatalAt s (s.raiseFatal (.outOfBounds op a) w) 1 op.code w (BitVec.ofNat 16 a) := ⟨rfl, rfl⟩

/-- Of the state before a fatal error the record holds PC alone (R245). -/
theorem fatalAt_of_pc_eq {s t u : State} {kind : BitVec 2} {op : BitVec 3} {w addr : Word} (hpc : t.pc = s.pc)
    (h : FatalAt t u kind op w addr) : FatalAt s u kind op w addr := by
  unfold FatalAt at h ⊢
  rwa [← hpc]

/-- A draw that fails at the first address of R61 is a fatal error with op READ (R203). -/
theorem finishDraw_fatal {s : State} {run : DrawRun} (w : Word)
    (h : run.failedAt = some (max s.i.toNat memSize)) : FatalAt s (s.finishDraw run w) 1 2 w s.badAtI := by
  rw [finishDraw_of_failedAt w h, ← badAtI_eq]
  refine fatalAt_of_pc_eq ?_ (raiseFatal_outOfBounds_fatal _ .read _ w)
  rw [tookFree_pc, setDisplay_pc]

/-! ### The draw -/

/-- A flag as VF holds it is 0 or 1 (R22). -/
theorem flagByte_zero_or_one (f : Bool) : flagByte f = 0 ∨ flagByte f = 1 := by
  cases f
  · exact Or.inl rfl
  · exact Or.inr rfl

/-- VF is 1 exactly when the flag is set (R22). -/
theorem flagByte_eq_one (f : Bool) : flagByte f = 1 ↔ f = true := by
  cases f <;> decide

/-- Settles O38: the two ways a draw ends, by whether every row's address is in bounds. -/
theorem drawXorsTheSprite : Obligations.DrawXorsTheSprite := by
  intro x y n s
  constructor
  · intro hin
    obtain ⟨t, hexec, hdisplay, hregs, hpc, _, _, hkeeps⟩ := draw_ok (x := x) (y := y) hin
    have hflag : t.readV 15 = flagByte (drawFrom x y n s).collision := (hregs 15).trans (if_pos rfl)
    refine ⟨t, hexec, fun px py _ hy => ?_, ?_, ?_, hpc, hkeeps⟩
    · rw [hdisplay]
      exact drawFrom_pixel hin px py hy
    · rw [hflag]
      exact flagByte_zero_or_one _
    · rw [hflag, flagByte_eq_one]
      exact drawFrom_collision hin
  · intro hn hout
    have hf : (drawFrom x y n s).failedAt = some (max s.i.toNat memSize) :=
      (drawFrom_failed x y n s).trans (firstOutOfBounds_of_exceeds hn hout)
    refine ⟨_, rfl, finishDraw_fatal _ hf, fun px py _ hy => ?_, finishDraw_keeps_of_failedAt _ hf⟩
    rw [← drawFrom_pixel_outOfBounds hf px py hy]
    exact finishDraw_pixel_of_failedAt _ hf px py

end Sys2Proof.Machine
end

section
/-! PROOFS of the family 44_timer_input: the skips on a key, the timer's read and write, and the wait for a key (R220
to R225). The frames of a timer write and of a consumed key come first. -/

namespace Sys2Proof.Machine

/-! ### Frames -/

/-- Writing the timer keeps everything else (R39). -/
theorem dtWrite_keeps (s : State) (b : Byte) : Keeps [.timer] [] s (s.dtWrite b) := by
  refine ⟨fun p hp => ?_, fun _ _ => rfl⟩
  cases p <;> simp_all [Part.kept]

/-- Emptying the latch keeps everything else (R40). -/
theorem keyConsume_keeps (s : State) : Keeps [.latch] [] s s.keyConsume := by
  refine ⟨fun p hp => ?_, fun _ _ => rfl⟩
  cases p <;> simp_all [Part.kept]

/-- The frame of an instruction that writes one register and consumes the key. -/
theorem writeV_keyConsume_advance_keeps (s : State) (x : Reg) (b : Byte) :
    Keeps [.latch] [x] s ((s.writeV x b).keyConsume).advance :=
  advance_keeps (keeps_trans (keeps_mono (writeV_keeps s x b) (List.nil_subset _) (List.Subset.refl _))
    (keeps_mono (keyConsume_keeps _) (List.Subset.refl _) (List.nil_subset _)))

/-! ### The wait for a key -/

/-- LD Vx, K with no key latched (R224). -/
theorem exec_ldVxK_of_none {s : State} (x : Reg) (hk : s.key = none) : exec (.ldVxK x) s = .next s := by
  simp only [exec, execLdVxK, State.keyQuery, hk]

/-- LD Vx, K with a key latched (R224). -/
theorem exec_ldVxK_of_some {s : State} (x : Reg) {k : Key} (hk : s.key = some k) :
    exec (.ldVxK x) s = .next ((s.writeV x (zextKey k)).keyConsume).advance := by
  simp only [exec, execLdVxK, State.keyQuery, hk]

/-! ### The instructions -/

/-- Settles O40: each of the two is `skipIf` on whether the key Vx is pressed, SKNP on the negation. -/
theorem keySkips : Obligations.KeySkips := by
  intro x s
  refine ⟨⟨_, rfl, ?_, skipIf_keeps s _⟩, ⟨_, rfl, ?_, skipIf_keeps s _⟩⟩
  · simp only [skipIf_pc, pressed_iff]
  · simp only [skipIf_pc, ← pressed_iff]
    cases s.pressed (s.readV x) <;> rfl

/-- Settles O41: the read writes the timer's value to Vx, the write puts Vx in the timer, and both go on. -/
theorem timerIsReadAndSet : Obligations.TimerIsReadAndSet := by
  intro x s
  refine ⟨⟨_, rfl, ?_, rfl, writeV_advance_keeps s x _⟩, ⟨_, rfl, rfl, rfl, advance_keeps (dtWrite_keeps s _)⟩⟩
  rw [advance_readV, writeV_readV_same, State.dtRead]

/-- Settles O42: the two ways the wait ends, by whether a key is latched. -/
theorem waitForKeyConsumesTheLatch : Obligations.WaitForKeyConsumesTheLatch := by
  intro x s
  refine ⟨exec_ldVxK_of_none x, fun k hk => ?_⟩
  refine ⟨_, exec_ldVxK_of_some x hk, ?_, rfl, rfl, writeV_keyConsume_advance_keeps s x _⟩
  rw [advance_readV, keyConsume_readV, writeV_readV_same, zextKey_toNat]

end Sys2Proof.Machine
end

section
/-! PROOFS of the family 60_exceptions: a word that is no instruction (R242), the halted block (R248) and the host's
tick (R253). Each part says what a step or a host action does before the statement that rests on it. -/

namespace Sys2Proof.Machine

/-! ### Steps that end in a fatal error, and steps of a halted block -/

/-- A running block whose fetched word is no instruction takes that word's fatal error (R242). -/
theorem step_of_decode_error {s : State} {w : Word} {e : DecodeError} (hs : s.halted = false)
    (hf : s.fetch = .ok w) (hd : decode w = .error e) : step s = .next (s.unknownOpcode w) := by
  simp [step, hs, hf, hd]

/-- A step request of a halted block is ignored (R36, R248). -/
theorem step_of_halted {s : State} (hs : s.halted = true) : step s = .next s := by
  simp [step, hs]

/-- Settles O3: the step takes the fatal error of an unknown opcode, which writes the status alone. -/
theorem unknownWordIsFatal : Obligations.UnknownWordIsFatal := by
  intro s w e hs hf hd
  exact ⟨_, step_of_decode_error hs hf hd, ⟨rfl, rfl⟩, raiseFatal_keeps s .unknownOpcode w⟩

/-! ### The host's tick -/

/-- A tick writes the timer and nothing else. -/
theorem tick_eq_dtWrite (s : State) : s.tick = s.dtWrite (if s.dt.toNat = 0 then s.dt else s.dt - 1) := by
  unfold State.tick
  split <;> rfl

/-- A tick keeps everything but the timer (R253). -/
theorem tick_keeps (s : State) : Keeps [.timer] [] s s.tick := by
  rw [tick_eq_dtWrite]
  exact dtWrite_keeps s _

/-- A tick keeps PC (R253). -/
@[simp] theorem tick_pc (s : State) : s.tick.pc = s.pc := by
  rw [tick_eq_dtWrite, dtWrite_pc]

/-- A tick takes one from the timer and stops at 0: the subtraction is that of the natural numbers (R253). -/
@[simp] theorem tick_dt_toNat (s : State) : s.tick.dt.toNat = s.dt.toNat - 1 := by
  rw [tick_eq_dtWrite, dtWrite_dt]
  split
  · next hzero => rw [hzero]
  · next hpos => bv_omega

/-! ### The host's actions -/

/-- A load that succeeds stores the ROM and does nothing else (R283). -/
theorem loadRom_next {rom : List Byte} {s t : State} (h : loadRom rom s = .next t) :
    rom.length ≤ romMax ∧ t = s.setMem (s.mem.store romBase rom) := by
  unfold loadRom at h
  split at h
  · next hfits =>
    cases h
    exact ⟨hfits, rfl⟩
  · cases h

/-- In a run of host actions the first one takes effect, then the others (R286). -/
theorem hostRun_cons_of_next {a : HostAction} {s t : State} (h : hostAct a s = .next t) (as : List HostAction) :
    hostRun (a :: as) s = hostRun as t := by
  simp only [hostRun, h]

/-- No host action but reset touches the status of a halted block (R248). -/
theorem hostAct_keeps_status {s t : State} {a : HostAction} (hs : s.halted = true) (ha : ∀ p, a ≠ .reset p)
    (h : hostAct a s = .next t) : Part.status.kept s t := by
  cases a with
  | requestStep =>
    cases (step_of_halted hs).symm.trans h
    exact kept_refl .status s
  | tick =>
    cases h
    exact (tick_keeps s).1 .status (by decide)
  | loadRom rom =>
    obtain ⟨_, rfl⟩ := loadRom_next h
    exact ⟨rfl, rfl⟩
  | reset p => exact absurd rfl (ha p)
  | setKey | snapshot | readStatus =>
    cases h
    exact ⟨rfl, rfl⟩

/-- Settles O4: a halted state steps to itself, and of the host's actions only reset touches the status. -/
theorem haltedUntilReset : Obligations.HaltedUntilReset := by
  refine ⟨fun s n hs => core_run_of_step_self (step_of_halted hs) n, fun s t a hs ha h => ?_,
    fun s p => ⟨_, rfl, rfl⟩⟩
  obtain ⟨hhalted, herr⟩ := hostAct_keeps_status hs ha h
  exact ⟨hhalted.trans hs, herr⟩

/-! ### Ticks one after another -/

/-- Ticks one after another take their number from the timer, never below 0, and keep the rest (R253). -/
theorem hostRun_ticks (n : Nat) (s : State) : ∃ t, hostRun (List.replicate n .tick) s = .next t ∧
    t.dt.toNat = s.dt.toNat - n ∧ Keeps [.timer] [] s t ∧ t.pc = s.pc := by
  induction n generalizing s with
  | zero => exact ⟨s, rfl, rfl, ⟨fun p _ => kept_refl p s, fun _ _ => rfl⟩, rfl⟩
  | succ n ih =>
    obtain ⟨t, hrun, hdt, hkeeps, hpc⟩ := ih s.tick
    refine ⟨t, (hostRun_cons_of_next rfl _).trans hrun, ?_, keeps_trans (tick_keeps s) hkeeps,
      hpc.trans (tick_pc s)⟩
    rw [hdt, tick_dt_toNat, Nat.sub_sub, Nat.add_comm]

/-- Settles O15: one tick by the laws of `State.tick`, several by induction on their number. -/
theorem tickCountsDownToZero : Obligations.TickCountsDownToZero :=
  ⟨fun s => ⟨rfl, tick_dt_toNat s, tick_keeps s, tick_pc s⟩, fun s n => hostRun_ticks n s⟩

end Sys2Proof.Machine
end

section
/-! PROOFS of the family 70_reset_and_hazards: the host's load of a ROM (R283). The load is one store from 0x200 on
when the ROM fits and a fault when it does not; what it leaves in memory is then what that store leaves there. -/

namespace Sys2Proof.Machine

/-- Putting a memory in place keeps everything else (R37). -/
theorem setMem_keeps (s : State) (m : Memory) : Keeps [.memory] [] s (s.setMem m) := by
  refine ⟨fun p hp => ?_, fun _ _ => rfl⟩
  cases p <;> simp_all [Part.kept]

/-- A ROM that fits is stored from 0x200 on (R283). -/
theorem loadRom_of_fits {rom : List Byte} (s : State) (h : rom.length ≤ romMax) :
    loadRom rom s = .next (s.setMem (s.mem.store romBase rom)) :=
  if_pos h

/-- A ROM that fits ends within memory: 3584 is what is left of the 4096 bytes from 0x200 on (R283). -/
theorem rom_end_le_memSize {rom : List Byte} (h : rom.length ≤ romMax) : romBase + rom.length ≤ memSize :=
  Nat.add_le_add_left h romBase

/-- Settles O13: for a ROM that fits by the laws of a store that stays in bounds; a load that ends in a next state
was of a ROM that fits. -/
theorem romLoadIsVerbatim : Obligations.RomLoadIsVerbatim := by
  intro rom s
  refine ⟨rfl, fun hw hfits => ?_, fun hlong t ht => ?_⟩
  · exact ⟨_, loadRom_of_fits s hfits, fun k hk => read_store_at hw (rom_end_le_memSize hfits) hk,
      fun _ hb => read_store_other _ _ _ hb, setMem_keeps s _, setMem_pc s _⟩
  · have hfits : rom.length ≤ romMax := (loadRom_next ht).1
    exact absurd hlong (Nat.not_lt.2 hfits)

end Sys2Proof.Machine
end

section
/-! PROOFS of the family other: the decoder with its encoder and the table (R90 to R100), subtraction and shift (R157,
R158, R161), round trips over several instructions (95_test_vectors.md), what each instruction can change and how it
can halt (10_state.md, 60_exceptions.md section 1), the invariant, what no instruction observes, and the host's
actions (70_reset_and_hazards.md). -/

namespace Sys2Proof

/-! ### Decoding what was encoded -/

/-- The word of an instruction decodes to it: the fields that select the row and the operands are read back (R93, R94). -/
theorem decode_encode (i : Instr) : decode (encode i) = .ok i := by
  cases i with
  | cls | ret => rfl
  | jp | call | ldINnn | jpV0Nnn => simp [encode, decode, op_nnn, nnn_nnn]
  | seVxKk | sneVxKk | ldVxKk | addVxKk | rndVxKk => simp [encode, decode, op_xkk, x_xkk, kk_xkk]
  | ldVxVy | orVxVy | andVxVy | xorVxVy | addVxVy | subVxVy | shrVx =>
    simp only [encode, decode, decodeOp8, op_xyn, x_xyn, y_xyn, n_xyn]
    rfl
  | sneVxVy => simp [encode, decode, decodeOp9, op_xyn, x_xyn, y_xyn, n_xyn]
  | drwVxVyN => simp [encode, decode, op_xyn, x_xyn, y_xyn, n_xyn]
  | skpVx | sknpVx => simp [encode, decode, decodeOpE, op_xkk, x_xkk, kk_xkk]
  | ldVxDt | ldVxK | ldDtVx | addIVx | ldFVx | ldBVx | ldMemIVx | ldVxMemI =>
    simp [encode, decode, decodeOpF, op_xkk, x_xkk, kk_xkk]

/-- Settles O8: the two bytes make the word again, and the word decodes to the instruction. -/
theorem decodeOfEncode : Obligations.DecodeOfEncode := by
  intro i rest _
  simp only [encodeBytes, List.cons_append, List.nil_append, decodeBytes, bytes_word, decode_encode]

/-! ### Encoding what was decoded -/

/-- What R95 asks of the answer for a word: an instruction whose encoding is the word, or UnknownOpcode. -/
def AnswersWord (w : Word) : Except DecodeError Instr → Prop
  | .ok i => encode i = w
  | .error e => e = .unknownOpcode

/-- Op 0x0: the two full words (R94). -/
theorem decodeOp0_answersWord (w : Word) : AnswersWord w (decodeOp0 w) := by
  unfold decodeOp0
  split_ifs with hcls hret
  · exact hcls.symm
  · exact hret.symm
  · rfl

/-- Op 0x8: a word is put together from op, x, y and the `n` that selected the row (R94). -/
theorem decodeOp8_answersWord {w : Word} (hop : opOf w = 0x8) : AnswersWord w (decodeOp8 w) := by
  have hw := xyn_split w
  rw [hop] at hw
  unfold decodeOp8
  split_ifs with h0 h1 h2 h3 h4 h5 h6
  case neg => rfl
  all_goals rwa [‹nOf w = _›] at hw

/-- Op 0x9: the one `n` it allows (R94). -/
theorem decodeOp9_answersWord {w : Word} (hop : opOf w = 0x9) : AnswersWord w (decodeOp9 w) := by
  have hw := xyn_split w
  rw [hop] at hw
  unfold decodeOp9
  split_ifs with h0
  · rwa [h0] at hw
  · rfl

/-- Op 0xE: a word is put together from op, x and the `kk` that selected the row (R94). -/
theorem decodeOpE_answersWord {w : Word} (hop : opOf w = 0xE) : AnswersWord w (decodeOpE w) := by
  have hw := xkk_split w
  rw [hop] at hw
  unfold decodeOpE
  split_ifs with h9E hA1
  · rwa [h9E] at hw
  · rwa [hA1] at hw
  · rfl

/-- Op 0xF: as for op 0xE, with its own eight bytes (R94). -/
theorem decodeOpF_answersWord {w : Word} (hop : opOf w = 0xF) : AnswersWord w (decodeOpF w) := by
  have hw := xkk_split w
  rw [hop] at hw
  unfold decodeOpF
  split_ifs with h07 h0A h15 h1E h29 h33 h55 h65
  case neg => rfl
  all_goals rwa [‹kkOf w = _›] at hw

/-- By the op: a word is put together again from the fields its row reads, and an op that selects further is one of
the lemmas above (R94, R95). -/
theorem decode_answersWord (w : Word) : AnswersWord w (decode w) := by
  have hnnn := nnn_split w
  have hxkk := xkk_split w
  have hxyn := xyn_split w
  rcases op_cases (opOf w) with
    (hop | hop | hop | hop | hop | hop | hop | hop) | (hop | hop | hop | hop | hop | hop | hop | hop) <;>
    simp only [decode, hop] <;> rw [hop] at hnnn hxkk hxyn
  · exact decodeOp0_answersWord w
  · exact hnnn
  · exact hnnn
  · exact hxkk
  · exact hxkk
  · rfl
  · exact hxkk
  · exact hxkk
  · exact decodeOp8_answersWord hop
  · exact decodeOp9_answersWord hop
  · exact hnnn
  · exact hnnn
  · exact hxkk
  · exact hxyn
  · exact decodeOpE_answersWord hop
  · exact decodeOpF_answersWord hop

/-- Settles O9: the first half of what the decoder answers. -/
theorem encodeOfDecode : Obligations.EncodeOfDecode := by
  intro w i h
  have hw := decode_answersWord w
  rwa [h] at hw

/-! ### Decoding and the opcode table -/

/-- Every row of the table is the row of an instruction. -/
theorem exists_instr_of_mem_opcodeTable {r : OpcodeRow} (h : r ∈ opcodeTable) : ∃ i : Instr, i.row = r := by
  revert r
  rw [← List.forall_iff_forall_mem]
  simp only [opcodeTable, List.cons_append, List.nil_append, List.Forall]
  repeat' apply And.intro
  all_goals exact ⟨_, rfl⟩

/-- The row of every instruction is in the table: it does not depend on the operands. -/
theorem row_mem_opcodeTable (i : Instr) : i.row ∈ opcodeTable := by
  cases i <;> simp [opcodeTable, Instr.row]

/-- A field that the mask of a word holds whole is the same in the masked word (R91). -/
theorem extractLsb'_of_masked {w mask pattern : Word} (start len : Nat) (h : w &&& mask = pattern)
    (hmask : mask.extractLsb' start len = BitVec.allOnes len) :
    w.extractLsb' start len = pattern.extractLsb' start len := by
  rw [← h, BitVec.extractLsb'_and, hmask, BitVec.and_allOnes]

/-- A word that an instruction's row covers decodes to an instruction of that row: the mask holds the fields that
decoding selects by (R95). -/
theorem decode_row_of_covers {i : Instr} {w : Word} (h : i.row.covers w = true) :
    (decode w).map Instr.row = .ok i.row := by
  replace h : w &&& i.row.mask = i.row.pattern := beq_iff_eq.1 h
  cases i with
  | cls | ret =>
    obtain rfl : w = _ := BitVec.and_allOnes.symm.trans h
    rfl
  | jp | call | seVxKk | sneVxKk | ldVxKk | addVxKk | ldINnn | jpV0Nnn | rndVxKk | drwVxVyN =>
    simp only [Instr.row] at h
    have hop : opOf w = _ := extractLsb'_of_masked 12 4 h (by decide)
    rw [decode, hop]
    rfl
  | ldVxVy | orVxVy | andVxVy | xorVxVy | addVxVy | subVxVy | shrVx | sneVxVy =>
    simp only [Instr.row] at h
    have hop : opOf w = _ := extractLsb'_of_masked 12 4 h (by decide)
    have hn : nOf w = _ := congrArg BitVec.toFin (extractLsb'_of_masked 0 4 h (by decide))
    rw [decode, hop, decodeOp8, decodeOp9, hn]
    rfl
  | skpVx | sknpVx | ldVxDt | ldVxK | ldDtVx | addIVx | ldFVx | ldBVx | ldMemIVx | ldVxMemI =>
    simp only [Instr.row] at h
    have hop : opOf w = _ := extractLsb'_of_masked 12 4 h (by decide)
    have hkk : kkOf w = _ := extractLsb'_of_masked 0 8 h (by decide)
    rw [decode, hop, decodeOpE, decodeOpF, hkk]
    rfl

/-- Settles O10: a word that decodes is the encoding of its instruction, whose row covers it; a word that some row
covers decodes. -/
theorem decodeAgreesWithTheTable : Obligations.DecodeAgreesWithTheTable := by
  intro w
  cases h : decode w with
  | ok i =>
    obtain ⟨_, hcovers⟩ := tableRow i
    rw [encodeOfDecode w i h] at hcovers
    exact .inl ⟨i, rfl, row_mem_opcodeTable i, hcovers⟩
  | error e =>
    have he := decode_answersWord w
    rw [h] at he
    cases he
    refine .inr ⟨rfl, fun r hr => Bool.eq_false_iff.2 fun hc => ?_⟩
    obtain ⟨i, rfl⟩ := exists_instr_of_mem_opcodeTable hr
    have hrow := decode_row_of_covers hc
    rw [h] at hrow
    cases hrow

/-- Two rows of the table that cover one word are the same row: it is the row of what the word decodes to. -/
theorem row_eq_of_covers {a b : OpcodeRow} {w : Word} (ha : a ∈ opcodeTable) (hb : b ∈ opcodeTable)
    (hca : a.covers w = true) (hcb : b.covers w = true) : a = b := by
  obtain ⟨i, rfl⟩ := exists_instr_of_mem_opcodeTable ha
  obtain ⟨k, rfl⟩ := exists_instr_of_mem_opcodeTable hb
  exact Except.ok.inj ((decode_row_of_covers hca).symm.trans (decode_row_of_covers hcb))

/-- No two rows of the table have the same pattern. -/
theorem opcodeTable_patterns_differ : opcodeTable.Pairwise fun a b => a.pattern ≠ b.pattern := by
  decide

/-- Settles O11: two rows that cover a word are equal, and no two rows of the table are. -/
theorem tableRowsDoNotOverlap : Obligations.TableRowsDoNotOverlap := by
  intro w
  refine opcodeTable_patterns_differ.imp_of_mem fun ha hb hne ⟨hca, hcb⟩ => hne ?_
  rw [row_eq_of_covers ha hb hca hcb]

/-- Settles O7: the nine words decode to their instructions, the tenth to none. -/
theorem wordsOfTheTableDecode : Obligations.WordsOfTheTableDecode := by
  refine ⟨?_, ?_, ?_, ?_, ?_, ?_, ?_, ?_, ?_, ?_⟩ <;> decide

end Sys2Proof

namespace Sys2Proof.Machine

/-! ### Subtraction and shift (R157, R158, R161) -/

/-- The frame of an instruction that writes VF as a flag and then one register. -/
theorem setFlag_writeV_advance_keeps (s : State) (x : Reg) (f : Bool) (b : Byte) :
    Keeps [] [x, 15] s ((s.setFlag f).writeV x b).advance :=
  advance_keeps (keeps_trans (keeps_mono (setFlag_keeps s f) (List.nil_subset _) (by simp))
    (keeps_mono (writeV_keeps _ x b) (List.nil_subset _) (by simp)))

theorem subResult_keeps (m : VfSampling) (x y : Reg) (s : State) : Keeps [] [x, 15] s (subResult m x y s) :=
  setFlag_writeV_advance_keeps s x _ _

theorem shrResult_keeps (m : VfSampling) (x : Reg) (s : State) : Keeps [] [x, 15] s (shrResult m x s) :=
  setFlag_writeV_advance_keeps s x _ _

/-- Vx after SUB: the difference of the operands as the mode reads them (R97, R157). -/
theorem subResult_readV_dest (m : VfSampling) (x y : Reg) (s : State) :
    (subResult m x y s).readV x =
      lateOperand m s (s.setFlag (notBorrowOf (s.readV x) (s.readV y))) x -
        lateOperand m s (s.setFlag (notBorrowOf (s.readV x) (s.readV y))) y := by
  rw [subResult, advance_readV, writeV_readV_same]

/-- VF after SUB, where it is not the destination: the strict comparison of the old operands (R157). -/
theorem subResult_readV_vF {x : Reg} (hx : x ≠ 15) (m : VfSampling) (y : Reg) (s : State) :
    (subResult m x y s).readV 15 = flagByte (notBorrowOf (s.readV x) (s.readV y)) := by
  rw [subResult, advance_readV, writeV_readV_other _ _ hx.symm, setFlag_readV_vF]

/-- Vx after SHR: half of the operand as the mode reads it (R97, R158). -/
theorem shrResult_readV_dest (m : VfSampling) (x : Reg) (s : State) :
    (shrResult m x s).readV x = lateOperand m s (s.setFlag (shiftedOutOf (s.readV x))) x >>> 1 := by
  rw [shrResult, advance_readV, writeV_readV_same]

/-- VF after SHR, where it is not the destination: the old bit 0 of the operand (R158). -/
theorem shrResult_readV_vF {x : Reg} (hx : x ≠ 15) (m : VfSampling) (s : State) :
    (shrResult m x s).readV 15 = flagByte (shiftedOutOf (s.readV x)) := by
  rw [shrResult, advance_readV, writeV_readV_other _ _ hx.symm, setFlag_readV_vF]

/-- Writing VF does not touch another operand, so both modes read the same (R161). -/
theorem lateOperand_setFlag_other (m : VfSampling) (s : State) (f : Bool) {r : Reg} (hr : r ≠ 15) :
    lateOperand m s (s.setFlag f) r = s.readV r :=
  lateOperand_of_same m (setFlag_readV_other s f hr)

/-- VF as a late operand is its old value when latched and the flag when read in sequence (R161). -/
theorem lateOperand_setFlag_vF (m : VfSampling) (s : State) (f : Bool) :
    lateOperand m s (s.setFlag f) 15 =
      match m with
      | .latched => s.readV 15
      | .sequential => flagByte f := by
  cases m
  · exact lateOperand_latched s _ 15
  · rw [lateOperand_sequential, setFlag_readV_vF]

/-- The not-borrow flag as VF holds it (R157). -/
theorem flagByte_notBorrowOf (a b : Byte) :
    flagByte (notBorrowOf a b) = if b.toNat < a.toNat then 1 else 0 := by
  simp only [flagByte, notBorrowOf, decide_eq_true_eq]

theorem flagByte_notBorrowOf_toNat (a b : Byte) :
    (flagByte (notBorrowOf a b)).toNat = if b.toNat < a.toNat then 1 else 0 := by
  simp only [flagByte_toNat, notBorrowOf, decide_eq_true_eq]

/-- The bit shifted out, as VF holds it, is the remainder by 2 (R158). -/
theorem flagByte_shiftedOutOf_toNat (a : Byte) : (flagByte (shiftedOutOf a)).toNat = a.toNat % 2 := by
  rw [flagByte_toNat, shiftedOutOf, BitVec.getLsbD, Nat.testBit_zero]
  rcases Nat.mod_two_eq_zero_or_one a.toNat with h | h <;> simp [h]

/-- A difference of bytes, as the spec writes it modulo 256 (R157). -/
theorem byte_sub_toNat (a b : Byte) : (a - b).toNat = (a.toNat + 256 - b.toNat) % 256 := by
  have := b.isLt
  rw [BitVec.toNat_sub]
  omega

/-- A byte shifted right by one is its half (R158). -/
theorem byte_shiftRight_one_toNat (a : Byte) : (a >>> 1).toNat = a.toNat / 2 := by
  rw [BitVec.toNat_ushiftRight, Nat.shiftRight_one]

/-- A flag shifted right by one is 0, since it is 0 or 1 (R161). -/
theorem flagByte_shiftRight_one (f : Bool) : flagByte f >>> 1 = 0 := by
  cases f <;> rfl

/-- Settles O29: an operand that is not VF is read the same in both modes, and VF is its old value or the flag. -/
theorem vfAsOperandInBothSamplingModes : Obligations.VfAsOperandInBothSamplingModes := by
  intro x y s
  refine ⟨fun hx m => ?_, fun hx => ⟨?_, ?_⟩, fun hy => ⟨?_, ?_⟩, fun m => ?_, ?_, ?_⟩
  · rw [subResult_readV_vF hx, flagByte_notBorrowOf_toNat]
  · rw [subResult_readV_dest, lateOperand_setFlag_other _ _ _ hx, lateOperand_setFlag_vF]
  · rw [subResult_readV_dest, lateOperand_setFlag_other _ _ _ hx, lateOperand_setFlag_vF, flagByte_notBorrowOf]
  · rw [subResult_readV_dest, lateOperand_setFlag_other _ _ _ hy, lateOperand_setFlag_vF]
  · rw [subResult_readV_dest, lateOperand_setFlag_other _ _ _ hy, lateOperand_setFlag_vF, flagByte_notBorrowOf]
  · exact (subResult_readV_dest m 15 15 s).trans (BitVec.sub_self _)
  · rw [shrResult_readV_dest, lateOperand_setFlag_vF, byte_shiftRight_one_toNat]
  · rw [shrResult_readV_dest, lateOperand_setFlag_vF, flagByte_shiftRight_one]

/-- Settles O27: the result of the machine's mode, clause by clause as in the table of R161; the clauses hold for
either mode. -/
theorem subWritesNotBorrowThenDifference : Obligations.SubWritesNotBorrowThenDifference := by
  intro x y s
  refine ⟨_, rfl, rfl, subResult_keeps _ x y s, ?_⟩
  generalize Config.vfOperandSampling = m
  refine ⟨fun hx => ?_, fun hx hy => ?_, fun hx hy => ?_, fun hx hy => ?_, fun hx hy => ?_⟩
  · rw [subResult_readV_vF hx, flagByte_notBorrowOf_toNat]
  · rw [subResult_readV_dest, lateOperand_setFlag_other _ _ _ hx, lateOperand_setFlag_other _ _ _ hy, byte_sub_toNat]
  · subst hy
    rw [subResult_readV_dest, lateOperand_setFlag_other _ _ _ hx, lateOperand_setFlag_vF, byte_sub_toNat]
    cases m
    · rfl
    · simp only [flagByte_notBorrowOf_toNat]
  · subst hx
    rw [subResult_readV_dest, lateOperand_setFlag_other _ _ _ hy, lateOperand_setFlag_vF, byte_sub_toNat]
    cases m
    · rfl
    · simp only [flagByte_notBorrowOf_toNat]
  · subst hx hy
    exact (subResult_readV_dest m 15 15 s).trans (BitVec.sub_self _)

/-- Settles O28: the result of the machine's mode, which reads Vx the same in both modes unless it is VF. -/
theorem shiftWritesOldBitThenHalf : Obligations.ShiftWritesOldBitThenHalf := by
  intro x y s
  refine ⟨_, rfl, rfl, shrResult_keeps _ x s, ?_⟩
  generalize Config.vfOperandSampling = m
  refine ⟨fun hx => ⟨?_, ?_⟩, fun hx => ?_⟩
  · rw [shrResult_readV_dest, lateOperand_setFlag_other _ _ _ hx, byte_shiftRight_one_toNat]
  · rw [shrResult_readV_vF hx, flagByte_shiftedOutOf_toNat]
  · subst hx
    rw [shrResult_readV_dest, lateOperand_setFlag_vF]
    cases m
    · exact byte_shiftRight_one_toNat _
    · exact congrArg BitVec.toNat (flagByte_shiftRight_one _)

/-! ### Round trips (95_test_vectors.md) -/

/-- Settles O20: the CALL left the address after it on top of the stack, which is where RET goes. -/
theorem returnGoesAfterTheCall : Obligations.ReturnGoesAfterTheCall := by
  intro nnn s t u hs hcall hsp hstack
  rw [exec_call_of_lt nnn hs] at hcall
  cases hcall
  have hdepth : u.sp.val = s.sp.val + 1 := congrArg Fin.val hsp
  refine ⟨_, exec_ret_of_pos (by omega), ?_, Fin.ext (by simp [hdepth]), fun k hk => ?_⟩
  · simp [hstack, hdepth]
  · simp only [hstack]
    exact Vector.getElem_set_ne hs k.isLt (Nat.ne_of_gt hk)

/-- Settles O35: the load reads the bytes that the dump stored. -/
theorem loadAfterDumpRestores : Obligations.LoadAfterDumpRestores := by
  intro x s t u hw hin hdump hmem hi
  obtain ⟨_, hexec, hstored, _, _, hkept, _⟩ := (dumpStoresTheRegisters x s hw).1 hin
  cases hdump.symm.trans hexec
  replace hi : u.i = s.i := hi.trans (hkept .index (by decide))
  obtain ⟨r, hload, hregs, _⟩ := (loadFillsTheRegisters x u).1 (by rwa [hi])
  refine ⟨r, hload, fun k hk => ?_⟩
  rw [hregs k, if_pos hk, hmem, hi, hstored k hk]

/-- A fetch in bounds gives, byte by byte, whatever memory holds at PC and PC + 1 (R64, R76). -/
theorem fetch_bytes_of_mem {t u : State} (hmem : u.mem = t.mem) (hpc : u.pc.toNat + 1 < 4096) :
    ∃ w, u.fetch = .ok w ∧ ∀ a, (u.pc.toNat = a → w.extractLsb' 8 8 = t.mem.read a) ∧
      (u.pc.toNat + 1 = a → w.extractLsb' 0 8 = t.mem.read a) := by
  obtain ⟨w, hfetch, hhi, hlo⟩ := (fetchIsBigEndianAndBounded u).1 hpc
  rw [hmem] at hhi hlo
  exact ⟨w, hfetch, fun a => ⟨fun ha => ha ▸ hhi, fun ha => ha ▸ hlo⟩⟩

/-- Settles O36: a fetch reads memory, and memory holds what each of the two stores put there. -/
theorem storedBytesAreFetched : Obligations.StoredBytesAreFetched := by
  intro x s hw
  constructor
  · intro hin
    obtain ⟨t, hexec, hstored, _⟩ := (dumpStoresTheRegisters x s hw).1 hin
    refine ⟨t, hexec, fun u hmem hpc => ?_⟩
    obtain ⟨w, hfetch, hbytes⟩ := fetch_bytes_of_mem hmem hpc
    refine ⟨w, hfetch, fun k hk => ?_⟩
    rw [← hstored k hk]
    exact hbytes _
  · intro hin
    obtain ⟨t, hexec, hhundreds, htens, hones, _⟩ := (bcdStoresThreeDigits x s hw).1 hin
    refine ⟨t, hexec, fun u hmem hpc => ?_⟩
    obtain ⟨w, hfetch, hbytes⟩ := fetch_bytes_of_mem hmem hpc
    refine ⟨w, hfetch, fun k d hkd => ?_⟩
    have hdigit : (t.mem.read (s.i.toNat + k)).toNat = d := by
      simp only [List.mem_cons, Prod.mk.injEq, List.not_mem_nil, or_false] at hkd
      rcases hkd with ⟨rfl, rfl⟩ | ⟨rfl, rfl⟩ | ⟨rfl, rfl⟩
      · exact hhundreds
      · exact htens
      · exact hones
    obtain ⟨hhi, hlo⟩ := hbytes (s.i.toNat + k)
    rw [← hdigit]
    exact ⟨fun ha => congrArg BitVec.toNat (hhi ha), fun ha => congrArg BitVec.toNat (hlo ha)⟩

/-- Settles O39: the second draw XORs the same sprite, since the first one kept I, memory and the coordinates; so it
covers a pixel that is 1 exactly where the first one set it. -/
theorem drawTwiceRestores : Obligations.DrawTwiceRestores := by
  intro x y n s hx hy hin
  obtain ⟨t, hfirst, htdisplay, htregs, _, hti, htmem, _⟩ := draw_ok (x := x) (y := y) hin
  have hin' : n.val = 0 ∨ t.i.toNat + n.val ≤ 4096 := by rwa [hti]
  obtain ⟨u, hsecond, hudisplay, huregs, _⟩ := draw_ok (x := x) (y := y) hin'
  have htx : t.readV x = s.readV x := (htregs x).trans (if_neg hx)
  have hty : t.readV y = s.readV y := (htregs y).trans (if_neg hy)
  have hset (px py : Nat) (hpy : py < 32) := htdisplay ▸ drawFrom_pixel (x := x) (y := y) hin px py hpy
  refine ⟨t, u, hfirst, hsecond, fun px py => ?_, ?_⟩
  · rcases Nat.lt_or_ge py 32 with hpy | hpy
    · rw [hudisplay, drawFrom_pixel hin' px py hpy, hset px py hpy, htx, hty, hti, htmem, Bool.bne_assoc, bne_self_eq_false,
        Bool.bne_false]
    · rw [pixel_offscreen _ _ _ (.inr hpy), pixel_offscreen _ _ _ (.inr hpy)]
  · rw [huregs 15, if_pos rfl, flagByte_eq_one, drawFrom_collision hin', htx, hty, hti, htmem]
    refine exists_congr fun px => exists_congr fun py => and_congr_right fun _ => and_congr_right fun hpy => ?_
    rw [hset px py hpy]
    generalize spriteCovers _ _ _ _ _ _ _ = covered
    cases s.display.pixel px py <;> cases covered <;> decide

/-- Settles O43: with no key latched the state steps to itself. -/
theorem waitsWhileNoKeyIsLatched : Obligations.WaitsWhileNoKeyIsLatched := by
  intro s x hs hk hf n
  refine core_run_of_step_self ?_ n
  rw [step_of_fetch_decode_ok hs hf (decode_encode _), exec_ldVxK_of_none x hk]

/-! ### What each instruction can change -/

/-- The parts of the state that an instruction may change, whichever way it ends. -/
def writtenParts : Instr → List Part
  | .cls => [.display]
  | .ret | .call _ => [.stack, .status]
  | .ldINnn _ | .addIVx _ | .ldFVx _ => [.index]
  | .rndVxKk _ _ => [.free]
  | .drwVxVyN _ _ _ => [.display, .status, .free]
  | .ldVxK _ => [.latch]
  | .ldDtVx _ => [.timer]
  | .ldBVx _ | .ldMemIVx _ => [.memory, .status, .free]
  | .ldVxMemI _ => [.status, .free]
  | _ => []

/-- The registers that an instruction may change, whichever way it ends. -/
def writtenRegs : Instr → List Reg
  | .ldVxKk x _ | .addVxKk x _ | .rndVxKk x _ => [x]
  | .ldVxVy x _ | .orVxVy x _ | .andVxVy x _ | .xorVxVy x _ => [x]
  | .addVxVy x _ | .subVxVy x _ | .shrVx x _ => [x, 15]
  | .drwVxVyN _ _ _ => [15]
  | .ldVxDt x | .ldVxK x => [x]
  | .ldVxMemI x => (List.finRange 16).filter (· ≤ x)
  | _ => []

theorem keeps_refl (ps : List Part) (rs : List Reg) (s : State) : Keeps ps rs s s :=
  ⟨fun p _ => kept_refl p s, fun _ _ => rfl⟩

/-- Every instruction keeps what it is not listed to change: its frame is that of the operations it is made of. -/
theorem exec_keeps {i : Instr} {s t : State} (h : exec i s = .next t) :
    Keeps (writtenParts i) (writtenRegs i) s t := by
  cases i with
  | cls =>
    cases h
    exact advance_keeps (setDisplay_keeps s _)
  | jp | jpV0Nnn | seVxKk | sneVxKk | sneVxVy | skpVx | sknpVx =>
    cases h
    exact setPc_keeps s _
  | ldVxKk | addVxKk | ldVxVy | orVxVy | andVxVy | xorVxVy | ldVxDt =>
    cases h
    exact writeV_advance_keeps s _ _
  | addVxVy x y =>
    cases h
    exact writeV_setFlag_advance_keeps s x _ _
  | subVxVy x y =>
    cases h
    exact subResult_keeps _ x y s
  | shrVx x y =>
    cases h
    exact shrResult_keeps _ x s
  | ldINnn | addIVx | ldFVx =>
    cases h
    exact setI_advance_keeps s _
  | rndVxKk x kk =>
    cases h
    exact writeV_tookFree_advance_keeps s x _
  | ldDtVx x =>
    cases h
    exact advance_keeps (dtWrite_keeps s _)
  | drwVxVyN x y n =>
    cases h
    exact finishDraw_keeps s _ _
  | ldBVx x | ldMemIVx x =>
    cases h
    exact storeAtI_keeps s _ _
  | ldVxMemI x =>
    cases h
    obtain ⟨hparts, hregs⟩ := loadAtI_keeps s (encode (.ldVxMemI x)) x
    simp only [writtenParts, writtenRegs]
    refine ⟨fun p hp => hparts p ?_ ?_, fun r hr => hregs r ?_⟩
    · exact fun e => hp (by simp [e])
    · exact fun e => hp (by simp [e])
    · simpa using hr
  | ldVxK x =>
    cases hk : s.key with
    | none =>
      cases (exec_ldVxK_of_none x hk).symm.trans h
      exact keeps_refl _ _ s
    | some k =>
      cases (exec_ldVxK_of_some x hk).symm.trans h
      exact writeV_keyConsume_advance_keeps s x _
  | call nnn =>
    by_cases hs : s.sp.val < 16
    · cases (exec_call_of_lt nnn hs).symm.trans h
      exact keeps_mono (setStack_setPc_keeps s _ _ _) (by simp [writtenParts]) (List.nil_subset _)
    · cases (exec_call_of_full nnn (by omega)).symm.trans h
      exact keeps_mono (raiseFatal_keeps s _ _) (by simp [writtenParts]) (List.nil_subset _)
  | ret =>
    by_cases hs : s.sp.val = 0
    · cases (exec_ret_of_empty hs).symm.trans h
      exact keeps_mono (raiseFatal_keeps s _ _) (by simp [writtenParts]) (List.nil_subset _)
    · cases (exec_ret_of_pos (Nat.pos_of_ne_zero hs)).symm.trans h
      exact keeps_mono (setStack_setPc_keeps s s.stack _ _) (by simp [writtenParts]) (List.nil_subset _)

/-- A part that an instruction changed is one it is listed to change. -/
theorem mem_writtenParts {i : Instr} {s t : State} (h : exec i s = .next t) {p : Part} (hp : ¬ p.kept s t) :
    p ∈ writtenParts i :=
  by_contra fun hn => hp ((exec_keeps h).1 p hn)

/-- A register that an instruction changed is one it is listed to change. -/
theorem mem_writtenRegs {i : Instr} {s t : State} (h : exec i s = .next t) {r : Reg} (hr : t.readV r ≠ s.readV r) :
    r ∈ writtenRegs i :=
  by_contra fun hn => hr ((exec_keeps h).2 r hn)

/-- Settles O44: the instructions listed to change VF are those of R22. -/
theorem vfChangesOnlyAsFlagOrDestination : Obligations.VfChangesOnlyAsFlagOrDestination := by
  intro i s t h hne
  have hmem := mem_writtenRegs h hne
  cases i with
  | addVxVy | subVxVy | shrVx | drwVxVyN => simp
  | ldVxKk | addVxKk | rndVxKk | ldVxVy | orVxVy | andVxVy | xorVxVy | ldVxDt | ldVxK =>
    obtain rfl := List.mem_singleton.1 hmem
    simp
  | ldVxMemI x =>
    have hx : 15 ≤ x := by simpa [writtenRegs] using hmem
    obtain rfl : x = 15 := Fin.le_antisymm (Fin.le_last x) hx
    simp
  | cls | ret | jp | call | seVxKk | sneVxKk | sneVxVy | ldINnn | jpV0Nnn | skpVx | sknpVx | ldDtVx | addIVx | ldFVx
  | ldBVx | ldMemIVx => cases hmem

/-- Settles O45: the instructions listed to change I are those of R24. -/
theorem indexChangesOnlyByItsWriters : Obligations.IndexChangesOnlyByItsWriters := by
  intro i s t h hne
  have hmem : Part.index ∈ writtenParts i := mem_writtenParts h hne
  cases i <;> simp [writtenParts] at hmem ⊢

/-- Settles O46: for each of the five parts, the instructions listed to change it are those of the statement. -/
theorem busAndStackChangeOnlyByTheirWriters : Obligations.BusAndStackChangeOnlyByTheirWriters := by
  intro i s t h
  refine ⟨fun hp => ?_, fun hp => ?_, fun hp => ?_, fun hp => ?_, fun hp => ?_⟩
  all_goals
    have hmem := mem_writtenParts h hp
    cases i <;> simp [writtenParts] at hmem ⊢

/-! ### How a step can halt (60_exceptions.md section 1) -/

/-- The fatal errors of instructions: kind, operation and address of the record, by instruction (R240). -/
inductive ExecFatal (s : State) : Instr → ErrKind → ErrOp → Word → Prop
  | ret : ExecFatal s .ret .stackUnderflow .none 0
  | call (nnn : Addr12) : ExecFatal s (.call nnn) .outOfBounds .push 16
  | ldBVx (x : Reg) : ExecFatal s (.ldBVx x) .outOfBounds .write s.badAtI
  | ldMemIVx (x : Reg) : ExecFatal s (.ldMemIVx x) .outOfBounds .write s.badAtI
  | ldVxMemI (x : Reg) : ExecFatal s (.ldVxMemI x) .outOfBounds .read s.badAtI
  | drwVxVyN (x y : Reg) (n : Fin 16) : ExecFatal s (.drwVxVyN x y n) .outOfBounds .read s.badAtI

/-- The fatal errors of a step: kind, operation, word and address of the record (R240 to R243). -/
inductive StepFatal (s : State) : ErrKind → ErrOp → Word → Word → Prop
  | fetch {a : Nat} (hf : s.fetch = .error a) :
      StepFatal s .outOfBounds .fetch 0 (if s.pc.toNat < 4096 then 0x1000 else s.pc)
  | decode {w : Word} (hf : s.fetch = .ok w) : StepFatal s .unknownOpcode .none w 0
  | exec {w : Word} {i : Instr} {kind : ErrKind} {op : ErrOp} {addr : Word} (hf : s.fetch = .ok w)
      (hd : decode w = .ok i) (he : ExecFatal s i kind op addr) : StepFatal s kind op w addr

/-- A store at I keeps the status, or raises OutOfBounds with op WRITE (R183, R184). -/
theorem storeAtI_status (s : State) (w : Word) (bytes : List Byte) :
    Part.status.kept s (s.storeAtI w bytes) ∨ FatalAt s (s.storeAtI w bytes) 1 3 w s.badAtI := by
  by_cases h : bytes.length = 0 ∨ s.i.toNat + bytes.length ≤ memSize
  · rw [storeAtI_inBounds w h]
    exact .inl ⟨rfl, rfl⟩
  · rw [storeAtI_outOfBounds w (by omega) (by omega)]
    exact .inr (failStore_fatal s w bytes)

/-- A load from I keeps the status, or raises OutOfBounds with op READ (R185). -/
theorem loadAtI_status (s : State) (w : Word) (x : Reg) :
    Part.status.kept s (s.loadAtI w x) ∨ FatalAt s (s.loadAtI w x) 1 2 w s.badAtI := by
  by_cases h : s.i.toNat + x.val < memSize
  · rw [loadAtI_inBounds w h]
    exact .inl (setV_advance_kept s _ .status)
  · exact .inr (loadAtI_fatal w (Nat.le_of_not_lt h))

/-- A draw keeps the status, or raises OutOfBounds with op READ (R203). -/
theorem finishDraw_status (x y : Reg) (n : Fin 16) (s : State) (w : Word) :
    Part.status.kept s (s.finishDraw (drawFrom x y n s) w) ∨
      FatalAt s (s.finishDraw (drawFrom x y n s) w) 1 2 w s.badAtI := by
  cases hf : (drawFrom x y n s).failedAt with
  | none =>
    refine .inl ?_
    unfold State.finishDraw
    rw [hf]
    exact ⟨rfl, rfl⟩
  | some bad =>
    refine .inr (finishDraw_fatal w ?_)
    rw [hf, (firstOutOfBounds_eq_some ((drawFrom_failed x y n s).symm.trans hf)).1]

/-- An instruction keeps the status, or ends in a fatal error of its own, with its word (R240). -/
theorem exec_status {i : Instr} {s t : State} (h : exec i s = .next t) :
    Part.status.kept s t ∨
      ∃ kind op addr, ExecFatal s i kind op addr ∧ FatalAt s t kind.code op.code (encode i) addr := by
  cases i with
  | ret =>
    by_cases hs : s.sp.val = 0
    · cases (exec_ret_of_empty hs).symm.trans h
      exact .inr ⟨_, _, _, .ret, rfl, rfl⟩
    · cases (exec_ret_of_pos (Nat.pos_of_ne_zero hs)).symm.trans h
      exact .inl ⟨rfl, rfl⟩
  | call nnn =>
    by_cases hs : s.sp.val < 16
    · cases (exec_call_of_lt nnn hs).symm.trans h
      exact .inl ⟨rfl, rfl⟩
    · cases (exec_call_of_full nnn (by omega)).symm.trans h
      exact .inr ⟨_, _, _, .call nnn, rfl, rfl⟩
  | ldBVx x =>
    cases h
    exact (storeAtI_status s _ _).imp_right fun hfatal => ⟨_, _, _, .ldBVx x, hfatal⟩
  | ldMemIVx x =>
    cases h
    exact (storeAtI_status s _ _).imp_right fun hfatal => ⟨_, _, _, .ldMemIVx x, hfatal⟩
  | ldVxMemI x =>
    cases h
    exact (loadAtI_status s _ x).imp_right fun hfatal => ⟨_, _, _, .ldVxMemI x, hfatal⟩
  | drwVxVyN x y n =>
    cases h
    exact (finishDraw_status x y n s _).imp_right fun hfatal => ⟨_, _, _, .drwVxVyN x y n, hfatal⟩
  | cls | jp | seVxKk | sneVxKk | ldVxKk | addVxKk | ldVxVy | orVxVy | andVxVy | xorVxVy | addVxVy | subVxVy | shrVx
  | sneVxVy | ldINnn | jpV0Nnn | rndVxKk | skpVx | sknpVx | ldVxDt | ldVxK | ldDtVx | addIVx | ldFVx =>
    exact .inl ((exec_keeps h).1 .status (by simp [writtenParts]))

/-- A step of a running block keeps the status, or ends in one of the fatal errors of a step. -/
theorem step_status {s t : State} (hs : s.halted = false) (h : step s = .next t) :
    Part.status.kept s t ∨
      ∃ kind op w addr, StepFatal s kind op w addr ∧ FatalAt s t kind.code op.code w addr := by
  rcases step_cases s with ⟨hhalted, _⟩ | ⟨_, a, hf, hstep⟩ | ⟨_, w, e, hf, _, hstep⟩ | ⟨_, w, i, hf, hd, hstep⟩
  · rw [hs] at hhalted
    cases hhalted
  · cases hstep.symm.trans h
    obtain ⟨_, rfl⟩ := fetch_error.1 hf
    exact .inr ⟨_, _, _, _, .fetch hf, fetchFault_fatal s⟩
  · cases hstep.symm.trans h
    exact .inr ⟨_, _, _, _, .decode hf, rfl, rfl⟩
  · refine (exec_status (hstep.symm.trans h)).imp_right fun ⟨kind, op, addr, he, hat⟩ => ?_
    rw [encodeOfDecode w i hd] at hat
    exact ⟨kind, op, w, addr, .exec hf hd he, hat⟩

/-- The codes of R35 name their kind. -/
theorem errKind_code_injective {a b : ErrKind} (h : a.code = b.code) : a = b := by
  revert h
  cases a <;> cases b <;> decide

/-- The codes of R35 name their operation. -/
theorem errOp_code_injective {a b : ErrOp} (h : a.code = b.code) : a = b := by
  revert h
  cases a <;> cases b <;> decide

/-- A fatal error read at the ports, as the status it stands for (R35, R245). -/
theorem status_of_fatalAt {s t : State} {kind : ErrKind} {op : ErrOp} {w addr : Word}
    (h : FatalAt s t kind.code op.code w addr) :
    t.halted = true ∧ t.err = ⟨kind, op, s.pc, w, addr⟩ ∧ t.pc = s.pc := by
  obtain ⟨hports, hpc⟩ := h
  obtain ⟨hhalted, hkind, hop, herrPc, hword, haddr⟩ := StatusPorts.mk.inj hports
  refine ⟨hhalted, ?_, hpc⟩
  rw [← errKind_code_injective hkind, ← errOp_code_injective hop, ← herrPc, ← hword, ← haddr]

/-- Settles O47: a running block that an instruction halts has that instruction's fatal error. -/
theorem fatalErrorsOfInstructions : Obligations.FatalErrorsOfInstructions := by
  intro i s t hs h ht
  rcases exec_status h with ⟨hkept, _⟩ | ⟨kind, op, addr, hfatal, hat⟩
  · rw [ht, hs] at hkept
    cases hkept
  · obtain ⟨_, herr, _⟩ := status_of_fatalAt hat
    rw [herr]
    cases hfatal with
    | ret => exact .inl ⟨rfl, rfl, rfl⟩
    | call nnn => exact .inr ⟨rfl, .inl ⟨nnn, rfl, rfl⟩⟩
    | ldBVx x => exact .inr ⟨rfl, .inr (.inl ⟨x, .inl rfl, rfl⟩)⟩
    | ldMemIVx x => exact .inr ⟨rfl, .inr (.inl ⟨x, .inr rfl, rfl⟩)⟩
    | ldVxMemI x => exact .inr ⟨rfl, .inr (.inr (.inl ⟨x, rfl, rfl⟩))⟩
    | drwVxVyN x y n => exact .inr ⟨rfl, .inr (.inr (.inr ⟨x, y, n, rfl, rfl⟩))⟩

/-- A fatal error of a step names a kind. -/
theorem stepFatal_kind_ne_none {s : State} {kind : ErrKind} {op : ErrOp} {w addr : Word}
    (h : StepFatal s kind op w addr) : kind ≠ .none := by
  cases h with
  | fetch | decode => decide
  | exec _ _ he => cases he <;> decide

/-- A fatal error of a step after the fetch records the word fetched (R245). -/
theorem stepFatal_word_of_fetch {s : State} {kind : ErrKind} {op : ErrOp} {w addr : Word}
    (h : StepFatal s kind op w addr) :
    (∀ u, s.fetch = .ok u → w = u) ∧ ∀ a, s.fetch = .error a → w = 0 := by
  cases h with
  | fetch hf => exact ⟨fun u hu => (by cases hf.symm.trans hu), fun _ _ => rfl⟩
  | decode hf | exec hf =>
    exact ⟨fun u hu => Except.ok.inj (hf.symm.trans hu), fun a ha => (by cases hf.symm.trans ha)⟩

/-- Settles O5: what the fatal errors of a step have in common. -/
theorem fatalRecordHoldsPcAndWord : Obligations.FatalRecordHoldsPcAndWord := by
  intro s t hs h ht
  rcases step_status hs h with ⟨hkept, _⟩ | ⟨kind, op, w, addr, hfatal, hat⟩
  · rw [ht, hs] at hkept
    cases hkept
  · obtain ⟨_, herr, hpc⟩ := status_of_fatalAt hat
    rw [herr]
    exact ⟨rfl, hpc, stepFatal_kind_ne_none hfatal, stepFatal_word_of_fetch hfatal⟩

/-! ### The invariant -/

/-- The address that R61 reports is beyond memory. -/
theorem memSize_le_reported (a : Word) : memSize ≤ (if a.toNat < memSize then (0x1000 : Word) else a).toNat := by
  split
  · decide
  · exact Nat.le_of_not_lt ‹_›

/-- The record of a fatal error of a step is one that R240 lists. -/
theorem legal_of_stepFatal {s : State} {kind : ErrKind} {op : ErrOp} {w addr : Word} (h : StepFatal s kind op w addr) :
    ErrRecord.legal ⟨kind, op, s.pc, w, addr⟩ s.pc = true := by
  have hbad : memSize ≤ s.badAtI.toNat := memSize_le_reported s.i
  cases h with
  | fetch => simpa [ErrRecord.legal] using memSize_le_reported s.pc
  | decode => simp [ErrRecord.legal]
  | exec _ hd he =>
    cases he with
    | ret =>
      cases encodeOfDecode _ _ hd
      simp [ErrRecord.legal, encode]
    | call => simp [ErrRecord.legal]
    | ldBVx | ldMemIVx | ldVxMemI | drwVxVyN => simpa [ErrRecord.legal] using hbad

theorem statusOk_of_halted {s : State} (hs : s.halted = true) : s.statusOk = s.err.legal s.pc := by
  rw [State.statusOk, hs, if_pos rfl]

theorem statusOk_of_running {s : State} (hs : s.halted = false) : s.statusOk = decide (s.err = .clear) := by
  rw [State.statusOk, hs]
  rfl

/-- A step of a running block with a clear record ends with a clear record or with a legal one. -/
theorem step_statusOk {s t : State} (hs : s.halted = false) (hok : s.statusOk = true) (h : step s = .next t) :
    t.statusOk = true := by
  rcases step_status hs h with ⟨hhalted, herr⟩ | ⟨kind, op, w, addr, hfatal, hat⟩
  · rw [statusOk_of_running hs] at hok
    rwa [statusOk_of_running (hhalted.trans hs), herr]
  · obtain ⟨ht, herr, hpc⟩ := status_of_fatalAt hat
    rw [statusOk_of_halted ht, herr, hpc]
    exact legal_of_stepFatal hfatal

/-- A load from I keeps memory, whichever way it ends. -/
@[simp] theorem loadAtI_mem (s : State) (w : Word) (x : Reg) : (s.loadAtI w x).mem = s.mem := by
  unfold State.loadAtI
  split <;> simp

/-- An instruction keeps the canonical form of memory: only stores at I write memory, and only in bounds. -/
theorem exec_mem_wf {i : Instr} {s t : State} (hw : s.mem.wf = true) (h : exec i s = .next t) :
    t.mem.wf = true := by
  cases i with
  | ldBVx | ldMemIVx =>
    cases h
    exact storeAtI_wf hw _ _
  | ldVxMemI x =>
    cases h
    rwa [loadAtI_mem]
  | drwVxVyN =>
    cases h
    rwa [finishDraw_mem]
  | ret =>
    by_cases hs : s.sp.val = 0
    · cases (exec_ret_of_empty hs).symm.trans h
      exact hw
    · cases (exec_ret_of_pos (Nat.pos_of_ne_zero hs)).symm.trans h
      exact hw
  | call nnn =>
    by_cases hs : s.sp.val < 16
    · cases (exec_call_of_lt nnn hs).symm.trans h
      exact hw
    · cases (exec_call_of_full nnn (by omega)).symm.trans h
      exact hw
  | ldVxK x =>
    cases hk : s.key with
    | none =>
      cases (exec_ldVxK_of_none x hk).symm.trans h
      exact hw
    | some k =>
      cases (exec_ldVxK_of_some x hk).symm.trans h
      exact hw
  | cls | jp | seVxKk | sneVxKk | ldVxKk | addVxKk | ldVxVy | orVxVy | andVxVy | xorVxVy | addVxVy | subVxVy | shrVx
  | sneVxVy | ldINnn | jpV0Nnn | rndVxKk | skpVx | sknpVx | ldVxDt | ldDtVx | addIVx | ldFVx =>
    cases h
    exact hw

/-- A step keeps the canonical form of memory. -/
theorem step_mem_wf {s t : State} (hw : s.mem.wf = true) (h : step s = .next t) : t.mem.wf = true := by
  rcases step_cases s with ⟨_, hstep⟩ | ⟨_, _, _, hstep⟩ | ⟨_, _, _, _, _, hstep⟩ | ⟨_, _, _, _, _, hstep⟩ <;>
    rw [hstep] at h
  · cases h
    exact hw
  · cases h
    exact hw
  · cases h
    exact hw
  · exact exec_mem_wf hw h

/-- Settles O49: a halted block steps to itself; of a running one, memory and status each by its own lemma. -/
theorem stepKeepsTheInvariant : Obligations.StepKeepsTheInvariant := by
  intro s t hinv h
  obtain ⟨hw, hok⟩ := hinv
  cases hs : s.halted with
  | true =>
    cases (step_of_halted hs).symm.trans h
    exact ⟨hw, hok⟩
  | false => exact ⟨step_mem_wf hw h, step_statusOk hs hok h⟩

/-- Settles O48: the record is clear after reset, and memory is the image given. -/
theorem resetHasTheInvariant : Obligations.ResetHasTheInvariant :=
  ⟨⟨rfl, rfl⟩, fun _ _ hw => ⟨hw, rfl⟩⟩

/-- Settles O50: a step and a reset by the two statements above; a load stores in bounds, and the other actions write
the latch or the timer alone. -/
theorem hostActionsKeepTheInvariant : Obligations.HostActionsKeepTheInvariant := by
  intro s t a hinv hreset h
  obtain ⟨hw, hok⟩ := hinv
  cases a with
  | requestStep => exact stepKeepsTheInvariant s t ⟨hw, hok⟩ h
  | reset p =>
    cases h
    exact resetHasTheInvariant.2 s p (hreset p rfl)
  | loadRom rom =>
    obtain ⟨hfits, rfl⟩ := loadRom_next h
    exact ⟨store_wf hw (.inr (rom_end_le_memSize hfits)), hok⟩
  | tick =>
    cases h
    rw [tick_eq_dtWrite]
    exact ⟨hw, hok⟩
  | setKey | snapshot | readStatus =>
    cases h
    exact ⟨hw, hok⟩

/-- Settles O51: PC is 0x200 after reset, and no stack entry is valid. -/
theorem resetHasPcBounded : Obligations.ResetHasPcBounded := by
  have hreset (p : ResetParams) : (State.resetWith p).PcBounded :=
    ⟨by simp [State.resetWith], fun k hk => absurd hk (Nat.not_lt_zero _)⟩
  exact ⟨hreset .zero, fun _ p => hreset p⟩

/-! ### What no instruction observes -/

/-- The state with other stack entries, another timer and another latch, each made from its old value. -/
def State.mapUnread (f : Vector Word 16 → Vector Word 16) (g : Byte → Byte) (k : Option Key → Option Key) (s : State) :
    State :=
  { s with stack := f s.stack, dt := g s.dt, key := k s.key }

section
variable (f : Vector Word 16 → Vector Word 16) (g : Byte → Byte) (k : Option Key → Option Key) (s : State)

@[simp] theorem mapUnread_i : (s.mapUnread f g k).i = s.i := rfl
@[simp] theorem mapUnread_mem : (s.mapUnread f g k).mem = s.mem := rfl
@[simp] theorem mapUnread_display : (s.mapUnread f g k).display = s.display := rfl
@[simp] theorem mapUnread_freeIndex : (s.mapUnread f g k).freeIndex = s.freeIndex := rfl

@[simp] theorem loadedRegs_mapUnread (count : Nat) (lands : Nat → Bool) :
    (s.mapUnread f g k).loadedRegs count lands = s.loadedRegs count lands := rfl

@[simp] theorem setMem_mapUnread (m : Memory) :
    (s.mapUnread f g k).setMem m = (s.setMem m).mapUnread f g k := rfl
@[simp] theorem setV_mapUnread (v : Vector Byte 16) :
    (s.mapUnread f g k).setV v = (s.setV v).mapUnread f g k := rfl
@[simp] theorem setDisplay_mapUnread (d : Display) :
    (s.mapUnread f g k).setDisplay d = (s.setDisplay d).mapUnread f g k := rfl
@[simp] theorem setFlag_mapUnread (c : Bool) :
    (s.mapUnread f g k).setFlag c = (s.setFlag c).mapUnread f g k := rfl
@[simp] theorem advance_mapUnread : (s.mapUnread f g k).advance = s.advance.mapUnread f g k := rfl
@[simp] theorem tookFree_mapUnread : (s.mapUnread f g k).tookFree = s.tookFree.mapUnread f g k := rfl
@[simp] theorem raiseFatal_mapUnread (c : FatalCause) (w : Word) :
    (s.mapUnread f g k).raiseFatal c w = (s.raiseFatal c w).mapUnread f g k := rfl

theorem storeAtI_mapUnread (w : Word) (bytes : List Byte) :
    (s.mapUnread f g k).storeAtI w bytes = (s.storeAtI w bytes).mapUnread f g k := by
  unfold State.storeAtI
  cases hb : firstOutOfBounds s.i.toNat bytes.length <;> simp [hb, State.failStore]

theorem loadAtI_mapUnread (w : Word) (x : Reg) :
    (s.mapUnread f g k).loadAtI w x = (s.loadAtI w x).mapUnread f g k := by
  unfold State.loadAtI
  cases hb : firstOutOfBounds s.i.toNat (x.val + 1) <;> simp [hb]

theorem finishDraw_mapUnread (run : DrawRun) (w : Word) :
    (s.mapUnread f g k).finishDraw run w = (s.finishDraw run w).mapUnread f g k := by
  unfold State.finishDraw
  cases run.failedAt <;> simp

end

/-- An instruction commutes with a change of the stack entries, the timer and the latch, where only CALL and RET ask
that the entries are the same, only the timer's instructions the timer, and only the keys' the latch. -/
theorem exec_mapUnread {f : Vector Word 16 → Vector Word 16} {g : Byte → Byte} {k : Option Key → Option Key}
    {i : Instr} {s t : State} (hstack : (∃ nnn, i = .call nnn) ∨ i = .ret → f = id)
    (htimer : (∃ x, i = .ldVxDt x ∨ i = .ldDtVx x) → g = id)
    (hlatch : (∃ x, i = .skpVx x ∨ i = .sknpVx x ∨ i = .ldVxK x) → k = id) (h : exec i s = .next t) :
    exec i (s.mapUnread f g k) = .next (t.mapUnread f g k) := by
  cases i with
  | call nnn =>
    obtain rfl := hstack (.inl ⟨nnn, rfl⟩)
    by_cases hs : s.sp.val < 16
    · cases (exec_call_of_lt nnn hs).symm.trans h
      exact exec_call_of_lt (s := s.mapUnread id g k) nnn hs
    · cases (exec_call_of_full nnn (by omega)).symm.trans h
      exact exec_call_of_full (s := s.mapUnread id g k) nnn (by simp only [State.mapUnread]; omega)
  | ret =>
    obtain rfl := hstack (.inr rfl)
    by_cases hs : s.sp.val = 0
    · cases (exec_ret_of_empty hs).symm.trans h
      exact exec_ret_of_empty (s := s.mapUnread id g k) hs
    · cases (exec_ret_of_pos (Nat.pos_of_ne_zero hs)).symm.trans h
      exact exec_ret_of_pos (s := s.mapUnread id g k) (Nat.pos_of_ne_zero hs)
  | ldVxDt x =>
    obtain rfl := htimer ⟨x, .inl rfl⟩
    cases h
    rfl
  | ldDtVx x =>
    obtain rfl := htimer ⟨x, .inr rfl⟩
    cases h
    rfl
  | skpVx x =>
    obtain rfl := hlatch ⟨x, .inl rfl⟩
    cases h
    rfl
  | sknpVx x =>
    obtain rfl := hlatch ⟨x, .inr (.inl rfl)⟩
    cases h
    rfl
  | ldVxK x =>
    obtain rfl := hlatch ⟨x, .inr (.inr rfl)⟩
    cases hk : s.key with
    | none =>
      cases (exec_ldVxK_of_none x hk).symm.trans h
      exact exec_ldVxK_of_none x hk
    | some c =>
      cases (exec_ldVxK_of_some x hk).symm.trans h
      exact exec_ldVxK_of_some x hk
  | ldBVx | ldMemIVx =>
    cases h
    exact congrArg _ (storeAtI_mapUnread f g k s _ _)
  | ldVxMemI x =>
    cases h
    exact congrArg _ (loadAtI_mapUnread f g k s _ x)
  | drwVxVyN x y n =>
    cases h
    exact congrArg _ (finishDraw_mapUnread f g k s _ _)
  | cls | jp | seVxKk | sneVxKk | ldVxKk | addVxKk | ldVxVy | orVxVy | andVxVy | xorVxVy | addVxVy | subVxVy | shrVx
  | sneVxVy | ldINnn | jpV0Nnn | rndVxKk | addIVx | ldFVx =>
    cases h
    rfl

/-- Settles O54: another timer, or another latch, is a change of the unread parts that keeps the others. -/
theorem timerAndLatchAreSeenOnlyByTheirInstructions : Obligations.TimerAndLatchAreSeenOnlyByTheirInstructions := by
  intro i s t d c h
  refine ⟨fun hread hwrite => ?_, fun hskp hsknp hwait => ?_⟩
  · refine exec_mapUnread (f := id) (g := fun _ => d) (k := id) (fun _ => rfl) ?_ (fun _ => rfl) h
    rintro ⟨x, rfl | rfl⟩
    · exact absurd rfl (hread x)
    · exact absurd rfl (hwrite x)
  · refine exec_mapUnread (f := id) (g := id) (k := fun _ => c) (fun _ => rfl) (fun _ => rfl) ?_ h
    rintro ⟨x, rfl | rfl | rfl⟩
    · exact absurd rfl (hskp x)
    · exact absurd rfl (hsknp x)
    · exact absurd rfl (hwait x)

/-! ### Stack entries at or above SP (R30) -/

/-- Two stacks with the same entries below SP. -/
def SameBelow (depth : Nat) (a b : Vector Word 16) : Prop := ∀ k : Fin 16, k.val < depth → a[k.val] = b[k.val]

/-- States that differ in stale entries alone are one state with another stack. -/
theorem sameButStale_iff {s t : State} :
    SameButStale s t ↔ ∃ entries, SameBelow s.sp.val s.stack entries ∧ t = { s with stack := entries } := by
  constructor
  · rintro ⟨_, hbelow, heq⟩
    exact ⟨t.stack, hbelow, heq.symm⟩
  · rintro ⟨entries, hbelow, rfl⟩
    exact ⟨rfl, hbelow, rfl⟩

/-- CALL writes the entry at SP, which is valid after it, so the stale ones stay stale. -/
theorem exec_call_sameButStale {nnn : Addr12} {s s' : State} {entries : Vector Word 16}
    (hbelow : SameBelow s.sp.val s.stack entries) (h : exec (.call nnn) s = .next s') :
    ∃ t', exec (.call nnn) { s with stack := entries } = .next t' ∧ SameButStale s' t' := by
  by_cases hs : s.sp.val < 16
  · cases (exec_call_of_lt nnn hs).symm.trans h
    refine ⟨_, exec_call_of_lt (s := { s with stack := entries }) nnn hs,
      sameButStale_iff.2 ⟨_, fun k hk => ?_, rfl⟩⟩
    by_cases htop : s.sp.val = k.val
    · simp [htop]
    · rw [Vector.getElem_set_ne _ _ htop, Vector.getElem_set_ne _ _ htop]
      exact hbelow k (by simp only at hk; omega)
  · cases (exec_call_of_full nnn (by omega)).symm.trans h
    exact ⟨_, exec_call_of_full (s := { s with stack := entries }) nnn (by simp only; omega),
      sameButStale_iff.2 ⟨entries, hbelow, rfl⟩⟩

/-- RET reads the entry below SP, which is valid, and makes it stale. -/
theorem exec_ret_sameButStale {s s' : State} {entries : Vector Word 16}
    (hbelow : SameBelow s.sp.val s.stack entries) (h : exec .ret s = .next s') :
    ∃ t', exec .ret { s with stack := entries } = .next t' ∧ SameButStale s' t' := by
  by_cases hs : s.sp.val = 0
  · cases (exec_ret_of_empty hs).symm.trans h
    exact ⟨_, exec_ret_of_empty (s := { s with stack := entries }) hs, sameButStale_iff.2 ⟨entries, hbelow, rfl⟩⟩
  · have hpos := Nat.pos_of_ne_zero hs
    cases (exec_ret_of_pos hpos).symm.trans h
    refine ⟨_, exec_ret_of_pos (s := { s with stack := entries }) hpos,
      sameButStale_iff.2 ⟨entries, fun k hk => ?_, ?_⟩⟩
    · exact hbelow k (Nat.lt_of_lt_of_le hk (Nat.sub_le _ _))
    · rw [← hbelow ⟨s.sp.val - 1, by omega⟩ (Nat.sub_lt hpos Nat.one_pos)]

/-- No instruction observes a stale entry. -/
theorem exec_sameButStale {i : Instr} {s s' : State} {entries : Vector Word 16}
    (hbelow : SameBelow s.sp.val s.stack entries) (h : exec i s = .next s') :
    ∃ t', exec i { s with stack := entries } = .next t' ∧ SameButStale s' t' := by
  by_cases hcall : ∃ nnn, i = .call nnn
  · obtain ⟨nnn, rfl⟩ := hcall
    exact exec_call_sameButStale hbelow h
  · by_cases hret : i = .ret
    · subst hret
      exact exec_ret_sameButStale hbelow h
    · have hother := exec_mapUnread (f := fun _ => entries) (g := id) (k := id)
        (fun hi => absurd hi (not_or.2 ⟨hcall, hret⟩)) (fun _ => rfl) (fun _ => rfl) h
      obtain ⟨hsp, hstack⟩ := exec_keeps_stack (not_exists.1 hcall) hret h
      refine ⟨_, hother, sameButStale_iff.2 ⟨entries, fun k hk => ?_, rfl⟩⟩
      rw [hstack k]
      exact hbelow k (by rwa [← hsp])

/-- Settles O53: the fetch, its fault and the word's do not read the stack, and instructions do not observe a stale
entry. -/
theorem staleStackEntriesAreUnobservable : Obligations.StaleStackEntriesAreUnobservable := by
  intro s t s' t' hst hs ht
  obtain ⟨entries, hbelow, rfl⟩ := sameButStale_iff.1 hst
  rcases step_cases s with ⟨hh, hstep⟩ | ⟨hh, a, hf, hstep⟩ | ⟨hh, w, e, hf, hd, hstep⟩ | ⟨hh, w, i, hf, hd, hstep⟩ <;>
    rw [hstep] at hs
  · cases hs
    cases (step_of_halted (s := { s with stack := entries }) hh).symm.trans ht
    exact hst
  · cases hs
    cases (step_of_fetch_error (s := { s with stack := entries }) hh hf).symm.trans ht
    exact sameButStale_iff.2 ⟨entries, hbelow, rfl⟩
  · cases hs
    cases (step_of_decode_error (s := { s with stack := entries }) hh hf hd).symm.trans ht
    exact sameButStale_iff.2 ⟨entries, hbelow, rfl⟩
  · obtain ⟨u, hexec, hu⟩ := exec_sameButStale hbelow hs
    cases ((step_of_fetch_decode_ok (s := { s with stack := entries }) hh hf hd).trans hexec).symm.trans ht
    exact hu

/-! ### Every step has a next state -/

/-- Every instruction has a next state: the fatal errors are next states too (log 9). -/
theorem exec_next (i : Instr) (s : State) : ∃ t, exec i s = .next t := by
  cases i with
  | ret =>
    rcases Nat.eq_zero_or_pos s.sp.val with hs | hs
    · exact ⟨_, exec_ret_of_empty hs⟩
    · exact ⟨_, exec_ret_of_pos hs⟩
  | call nnn =>
    by_cases hs : s.sp.val < 16
    · exact ⟨_, exec_call_of_lt nnn hs⟩
    · exact ⟨_, exec_call_of_full nnn (by omega)⟩
  | ldVxK x =>
    cases hk : s.key with
    | none => exact ⟨_, exec_ldVxK_of_none x hk⟩
    | some k => exact ⟨_, exec_ldVxK_of_some x hk⟩
  | cls | jp | seVxKk | sneVxKk | ldVxKk | addVxKk | ldVxVy | orVxVy | andVxVy | xorVxVy | addVxVy | subVxVy | shrVx
  | sneVxVy | ldINnn | jpV0Nnn | rndVxKk | drwVxVyN | skpVx | sknpVx | ldVxDt | ldDtVx | addIVx | ldFVx | ldBVx
  | ldMemIVx | ldVxMemI => exact ⟨_, rfl⟩

/-- Settles O6: each shape of a step answers a next state. -/
theorem stepAlwaysAnswersNext : Obligations.StepAlwaysAnswersNext := by
  intro s
  rcases step_cases s with ⟨_, hstep⟩ | ⟨_, _, _, hstep⟩ | ⟨_, _, _, _, _, hstep⟩ | ⟨_, _, i, _, _, hstep⟩
  · exact ⟨_, hstep⟩
  · exact ⟨_, hstep⟩
  · exact ⟨_, hstep⟩
  · rw [hstep]
    exact exec_next i s

/-! ### The host's actions (70_reset_and_hazards.md) -/

/-- Settles O12: reset is `State.resetWith` but for the model's counter. -/
theorem resetPutsTheResetValues : Obligations.ResetPutsTheResetValues := by
  intro s p
  exact ⟨_, rfl, rfl, rfl, rfl, rfl, fun _ => rfl, rfl, rfl, fun _ _ => rfl, fun _ => rfl⟩

/-- Setting the key keeps everything but the latch (R255). -/
theorem setKey_keeps (s : State) (k : Option Key) : Keeps [.latch] [] s (s.setKey k) := by
  refine ⟨fun p hp => ?_, fun _ _ => rfl⟩
  cases p <;> simp_all [Part.kept]

/-- Settles O16: the key is written by `State.setKey`; the two reads answer the state they were given. -/
theorem hostActionsKeepTheRest : Obligations.HostActionsKeepTheRest := by
  intro s k
  exact ⟨⟨_, rfl, setKey_key s k, setKey_keeps s k, setKey_pc s k⟩, rfl, rfl⟩

/-- Settles O55: the arms of `hostAct`, and a run of actions taken one after another. -/
theorem hostActionsHaveTheirEffects : Obligations.HostActionsHaveTheirEffects := by
  intro s rom
  exact ⟨rfl, rfl, rfl, rfl, fun _ as _ h => hostRun_cons_of_next h as⟩

/-! ### The order of a session (R282) -/

/-- A ROM load stands in the list with no reset after it. -/
def LoadedSinceReset (as : List HostAction) : Prop :=
  ∃ before rom after, as = before ++ .loadRom rom :: after ∧ ∀ p, .reset p ∉ after

theorem loadedSinceReset_cons {a : HostAction} {as : List HostAction} (h : LoadedSinceReset as) :
    LoadedSinceReset (a :: as) := by
  obtain ⟨before, rom, after, rfl, hafter⟩ := h
  exact ⟨a :: before, rom, after, rfl, hafter⟩

/-- Before a step of a session in order: a load since the last reset, or the session began loaded and met no reset. -/
theorem loaded_before_step {ph : SessionPhase} {pre post : List HostAction}
    (h : legalSession ph (pre ++ .requestStep :: post) = true) :
    LoadedSinceReset pre ∨ (ph ≠ .needsLoad ∧ ∀ p, .reset p ∉ pre) := by
  induction pre generalizing ph with
  | nil =>
    simp only [List.nil_append, legalSession, Bool.and_eq_true, decide_eq_true_eq] at h
    obtain ⟨hph, _⟩ := h
    exact .inr ⟨hph, fun _ => List.not_mem_nil⟩
  | cons a as ih =>
    cases a with
    | loadRom rom =>
      simp only [List.cons_append, legalSession, Bool.and_eq_true] at h
      obtain ⟨_, hrest⟩ := h
      exact .inl ((ih hrest).elim loadedSinceReset_cons fun ⟨_, hnone⟩ => ⟨[], rom, as, rfl, hnone⟩)
    | reset p =>
      simp only [List.cons_append, legalSession] at h
      exact .inl ((ih h).elim loadedSinceReset_cons fun ⟨hneeds, _⟩ => absurd rfl hneeds)
    | requestStep =>
      simp only [List.cons_append, legalSession, Bool.and_eq_true, decide_eq_true_eq] at h
      obtain ⟨hph, hrest⟩ := h
      exact (ih hrest).imp loadedSinceReset_cons fun ⟨_, hnone⟩ => ⟨hph, by simpa using hnone⟩
    | setKey | tick | snapshot | readStatus =>
      simp only [List.cons_append, legalSession] at h
      exact (ih h).imp loadedSinceReset_cons fun ⟨hph, hnone⟩ => ⟨hph, by simpa using hnone⟩

/-- Once a session has stepped, a reset stands before the next load. -/
theorem reset_before_load {mid post : List HostAction} {rom : List Byte}
    (h : legalSession .stepped (mid ++ .loadRom rom :: post) = true) : ∃ p, .reset p ∈ mid := by
  induction mid with
  | nil => simp [legalSession] at h
  | cons a as ih =>
    cases a with
    | reset p => exact ⟨p, List.mem_cons_self⟩
    | loadRom => simp [legalSession] at h
    | requestStep | setKey | tick | snapshot | readStatus =>
      obtain ⟨p, hp⟩ := ih (by simpa [legalSession] using h)
      exact ⟨p, List.mem_cons_of_mem _ hp⟩

/-- Settles O14: a session that needs a load has had one before a step, and a step leaves the session stepped. -/
theorem stepsComeAfterTheLoad : Obligations.StepsComeAfterTheLoad := by
  refine ⟨fun pre post h => ?_, fun ph mid post rom h => ?_⟩
  · exact (loaded_before_step h).resolve_right fun ⟨hneeds, _⟩ => hneeds rfl
  · simp only [legalSession, Bool.and_eq_true] at h
    obtain ⟨_, hrest⟩ := h
    exact reset_before_load hrest

end Sys2Proof.Machine

end
